-- ==== Sys2Proof/Word.lean ====
section
/-!
DEFINITION. The unsigned bit vectors of the spec (00_scope.md R9, R10, R12): every quantity of BNC is an unsigned value
of a stated width, bit 0 least significant. The operators of R12 are core Lean's own: complement `~~~` at the value's
width, concatenation `++` with the left operand in the more significant bits, zero extension `setWidth`.
-/

namespace Sys2Proof

/-- A command word: `CMD_WIDTH` = 64 bits, taken whole (R9, R36, R45). -/
abbrev Word := BitVec 64

/-- A byte; also a character code, `CHAR_WIDTH` = 8 (R10, R13). -/
abbrev Byte := BitVec 8

/-- Half a byte (R10). -/
abbrev Nibble := BitVec 4

/-- A block's access code: bit 2 = C1, bit 1 = C2, bit 0 = C3 (10_state.md R23). -/
abbrev AccessCode := BitVec 3

end Sys2Proof
end

