-- ==== Sys2Proof/Config.lean ====
section
/-!
DEFINITION. What a build of BNC fixes (00_scope.md R9): the shape of the two permission tables, which are parameters of
the model (10_state.md R24, R26; 41_access_rights.md R120, R121, R124), and the fixed widths by name. Their default
contents stand in Machine/Tables.lean. BNC has no value the spec leaves open after a command, so this file holds no
free value.
-/

namespace Sys2Proof

namespace Config

/-- `N_INSTANCES`'s default (R9, 92_eei_decisions.md D17). -/
def defaultInstances : Nat := 1

end Config

/-- One permission cell (10_state.md R24). -/
inductive Perm where
  | never
  | keyA
  | keyB
  | keyAB
  deriving DecidableEq, Repr

/-- The 2-bit warning note of a trailer row (R124). A vector of two bits rather than a list of names: a host-supplied
table's value 3 is passed through unchanged (92_eei_decisions.md D24, log 7). -/
abbrev TrailerNote := BitVec 2

/-- The 2-bit access-condition name of a data row (R124); value 3 passes through as for `TrailerNote`. -/
abbrev DataName := BitVec 2

/-- A row of the sector-trailer table, its fields in the spec's order (R120). -/
structure TrailerRow where
  readKeyA : Perm
  writeKeyA : Perm
  readDataBlock : Perm
  writeDataBlock : Perm
  readKeyB : Perm
  writeKeyB : Perm
  note : TrailerNote
  deriving DecidableEq, Repr

/-- A row of the data-block table, its fields in the spec's order (R121). -/
structure DataRow where
  read : Perm
  write : Perm
  increment : Perm
  decTransferRestore : Perm
  name : DataName
  deriving DecidableEq, Repr

/-- The ROM constants `PERM_TRAILER` and `PERM_DATA`, eight rows each, indexed by the access code (R26). -/
structure PermTables where
  trailer : Vector TrailerRow 8
  data : Vector DataRow 8
  deriving DecidableEq, Repr

end Sys2Proof
end

