-- ==== Sys2Proof/Syntax.lean ====
section
/-!
DEFINITION. The six commands of BNC-CMD version 1, one constructor per row of spec/opcode_table.json (30_encoding.md
R48), each with the operand of its format (R47, R50, R52, R54, R56). Every field has exactly the width the format gives
it (R57), so an encoded operand can hold every value of its Lean type and nothing else.
-/

namespace Sys2Proof

/-- The operand of format S (R52): the declared length and six character slots, `ch0` the leftmost. -/
structure StrOperand where
  len : Byte
  ch0 : Byte
  ch1 : Byte
  ch2 : Byte
  ch3 : Byte
  ch4 : Byte
  ch5 : Byte
  deriving DecidableEq, Repr

/-- `AccessByteTriple`, the operand of format T (R54, 41_access_rights.md R95): bytes 6, 7 and 8 of a sector trailer. -/
structure Triple where
  b6 : Byte
  b7 : Byte
  b8 : Byte
  deriving DecidableEq, Repr

/-- The commands (R48). -/
inductive Instr where
  /-- `ENC val` (R82). -/
  | enc (val : BitVec 16)
  /-- `PARSE "text"` (R99). -/
  | parse (str : StrOperand)
  /-- `VALID b6, b7, b8` (R106). -/
  | valid (t : Triple)
  /-- `DERIVE b6, b7, b8` (R112). -/
  | derive (t : Triple)
  /-- `LOOKUP.T code` (`trl` true) and `LOOKUP.D code` (`trl` false) (R119). -/
  | lookup (trl : Bool) (code : AccessCode)
  /-- `ACCESS "text"` (R128). -/
  | access (str : StrOperand)
  deriving DecidableEq, Repr

end Sys2Proof
end

