-- ==== Sys2Proof/WellFormed.lean ====
section
/-!
DEFINITION. Which command words are legal (30_encoding.md R58, R60), said by the rows of spec/opcode_table.json: a word
is legal when it agrees with a row's `match` on the row's `mask`. A term of `Instr` needs no check of its own, since its
fields have the widths of the formats (R57): the checks are on words. Decode.lean reads words field by field and does
not use this file's rows; that the two agree is a statement.
-/

namespace Sys2Proof

/-- One row of spec/opcode_table.json: a word belongs to the row when `word &&& mask = pattern`. -/
structure OpcodeRow where
  mnemonic : String
  pattern : Word
  mask : Word
  deriving DecidableEq, Repr

def OpcodeRow.accepts (r : OpcodeRow) (w : Word) : Bool := w &&& r.mask == r.pattern

/-- The row of each command, as the table has it. -/
def opcodeRow : Instr → OpcodeRow
  | .enc _ => ⟨"ENC", 0x0100000000000000, 0xFFFFFFFFFFFF0000⟩
  | .parse _ => ⟨"PARSE", 0x0200000000000000, 0xFF00000000000000⟩
  | .valid _ => ⟨"VALID", 0x0300000000000000, 0xFFFFFFFFFF000000⟩
  | .derive _ => ⟨"DERIVE", 0x0400000000000000, 0xFFFFFFFFFF000000⟩
  | .lookup _ _ => ⟨"LOOKUP", 0x0500000000000000, 0xFFFFFFFFFFFFFFF0⟩
  | .access _ => ⟨"ACCESS", 0x0600000000000000, 0xFF00000000000000⟩

/-- The whole table (R48): one row per command. -/
def opcodeTable : List OpcodeRow :=
  let str : StrOperand := ⟨0, 0, 0, 0, 0, 0, 0⟩
  let t : Triple := ⟨0, 0, 0⟩
  [opcodeRow (.enc 0), opcodeRow (.parse str), opcodeRow (.valid t), opcodeRow (.derive t),
    opcodeRow (.lookup false 0), opcodeRow (.access str)]

/-- A legal command word: some row of the table accepts it (R58, R60). -/
def legalWord (w : Word) : Bool := opcodeTable.any (·.accepts w)

end Sys2Proof
end

