-- ==== Sys2Proof/Decode.lean ====
section
/-!
DEFINITION. The decoder, total on every 64-bit word, and the encoder (30_encoding.md R45 to R61). Fields are cut out
here, once; the machine never sees a raw word. A word that is no command is rejected by name, in the order of R61.
-/

namespace Sys2Proof

/-- `op`, bits 63:56 (R46). -/
def opField (w : Word) : Byte := w.extractLsb' 56 8

/-- `val` of format V, bits 15:0 (R50). -/
def valField (w : Word) : BitVec 16 := w.extractLsb' 0 16

/-- `zero` of format V, bits 55:16 (R50). -/
def zeroV (w : Word) : BitVec 40 := w.extractLsb' 16 40

/-- The operand of format S: `len` in bits 55:48, `ch[0]` in 47:40 down to `ch[5]` in 7:0 (R36, R52). -/
def strField (w : Word) : StrOperand where
  len := w.extractLsb' 48 8
  ch0 := w.extractLsb' 40 8
  ch1 := w.extractLsb' 32 8
  ch2 := w.extractLsb' 24 8
  ch3 := w.extractLsb' 16 8
  ch4 := w.extractLsb' 8 8
  ch5 := w.extractLsb' 0 8

/-- The operand of format T: `b6` in bits 23:16, `b7` in 15:8, `b8` in 7:0 (R36, R54). -/
def tripleField (w : Word) : Triple where
  b6 := w.extractLsb' 16 8
  b7 := w.extractLsb' 8 8
  b8 := w.extractLsb' 0 8

/-- `zero` of format T, bits 55:24 (R54). -/
def zeroT (w : Word) : BitVec 32 := w.extractLsb' 24 32

/-- `trl` of format L, bit 3 (R56). -/
def trlField (w : Word) : Bool := w.getLsbD 3

/-- `code` of format L, bits 2:0 (R56). -/
def codeField (w : Word) : AccessCode := w.extractLsb' 0 3

/-- `zero` of format L, bits 55:4 (R56). -/
def zeroL (w : Word) : BitVec 52 := w.extractLsb' 4 52

/-- Why a word is no command (R61). -/
inductive Illegal where
  /-- `op` is 0x00 or 0x07 to 0xFF (R60). -/
  | reservedOp
  /-- `op` is assigned and a bit of the format's `zero` field is set (R58). -/
  | zeroFieldSet
  deriving DecidableEq, Repr

/-- What the decoder answers for a word. -/
inductive Decoded where
  | instr (i : Instr)
  | illegal (why : Illegal)
  deriving DecidableEq, Repr

/-- The decoder (R61): `op` first, then the `zero` field of the format. Format S has no `zero` field (R52). -/
def decode (w : Word) : Decoded :=
  if opField w = 0x01 then
    if zeroV w = 0 then .instr (.enc (valField w)) else .illegal .zeroFieldSet
  else if opField w = 0x02 then .instr (.parse (strField w))
  else if opField w = 0x03 then
    if zeroT w = 0 then .instr (.valid (tripleField w)) else .illegal .zeroFieldSet
  else if opField w = 0x04 then
    if zeroT w = 0 then .instr (.derive (tripleField w)) else .illegal .zeroFieldSet
  else if opField w = 0x05 then
    if zeroL w = 0 then .instr (.lookup (trlField w) (codeField w)) else .illegal .zeroFieldSet
  else if opField w = 0x06 then .instr (.access (strField w))
  else .illegal .reservedOp

/-- The 48 character bits of format S, `ch[0]` most significant (R52). -/
def encodeChars (s : StrOperand) : BitVec 48 := s.ch0 ++ s.ch1 ++ s.ch2 ++ s.ch3 ++ s.ch4 ++ s.ch5

/-- The 24 operand bits of format T (R54). -/
def encodeTriple (t : Triple) : BitVec 24 := t.b6 ++ t.b7 ++ t.b8

/-- The word of a command (R48, R50, R52, R54, R56): `op`, then the fields in the order of the format, reserved bits
zero. -/
def encode : Instr → Word
  | .enc val => 0x01#8 ++ 0#40 ++ val
  | .parse str => 0x02#8 ++ str.len ++ encodeChars str
  | .valid t => 0x03#8 ++ 0#32 ++ encodeTriple t
  | .derive t => 0x04#8 ++ 0#32 ++ encodeTriple t
  | .lookup trl code => 0x05#8 ++ 0#52 ++ BitVec.ofBool trl ++ code
  | .access str => 0x06#8 ++ str.len ++ encodeChars str

/-- The host's word of `nbits` bits as a command word: bits above `nbits` are zero, and a word that needs more than 64
bits is none (R45: every command is one 64-bit word). -/
def wordOfBits (nbits w : Nat) : Option Word :=
  if w % 2 ^ nbits < 2 ^ 64 then some (BitVec.ofNat 64 (w % 2 ^ nbits)) else none

/-- The command the decoder reads from an opcode-table word; `none` where it rejects the word. -/
def decodeTableWord (nbits w : Nat) : Option Instr :=
  match wordOfBits nbits w with
  | none => none
  | some v =>
    match decode v with
    | .instr i => some i
    | .illegal _ => none

end Sys2Proof
end

