-- ==== Sys2Proof/Machine/Tables.lean ====
section
/-!
DEFINITION. The default contents of the permission tables (41_access_rights.md R122, R123) and what their cells and
remarks mean (10_state.md R24, R124). PRESUMED (log 2): the contents are the spec's default from general knowledge
(93_implementation_defined.md GK2), not the source's; a claim about a cell must name the table.
-/

namespace Sys2Proof.Machine

/-- The 2-bit code of a permission (R24). PRESUMED by the spec (GK3, log 12). -/
def permCode : Perm → BitVec 2
  | .never => 0
  | .keyA => 1
  | .keyB => 2
  | .keyAB => 3

/-- Bit 0: allowed after authentication with key A (R24). -/
def permAllowsKeyA (p : Perm) : Bool := (permCode p).getLsbD 0

/-- Bit 1: allowed after authentication with key B (R24). -/
def permAllowsKeyB (p : Perm) : Bool := (permCode p).getLsbD 1

/-- The text of a trailer note (R124); note 0 has none, value 3 is named by no rule. PRESUMED by
the spec: the wording is the data sheet's (GK2, log 12). -/
def noteText (n : TrailerNote) : Option String :=
  if n = 1 then some "Key B may be read"
  else if n = 2 then some "Key B may be read; transport configuration"
  else none

/-- The text of an access-condition name (R124); value 3 is named by no rule. PRESUMED by the spec, as
for `noteText`. -/
def nameText (n : DataName) : Option String :=
  if n = 0 then some "transport configuration"
  else if n = 1 then some "read/write block"
  else if n = 2 then some "value block"
  else none

/-- The default `PERM_TRAILER` (R122), row number = access code. -/
def defaultTrailer : Vector TrailerRow 8 := #v[
  ⟨.never, .keyA, .keyA, .never, .keyA, .keyA, 1⟩,
  ⟨.never, .keyA, .keyA, .keyA, .keyA, .keyA, 2⟩,
  ⟨.never, .never, .keyA, .never, .keyA, .never, 1⟩,
  ⟨.never, .keyB, .keyAB, .keyB, .never, .keyB, 0⟩,
  ⟨.never, .keyB, .keyAB, .never, .never, .keyB, 0⟩,
  ⟨.never, .never, .keyAB, .keyB, .never, .never, 0⟩,
  ⟨.never, .never, .keyAB, .never, .never, .never, 0⟩,
  ⟨.never, .never, .keyAB, .never, .never, .never, 0⟩]

/-- The default `PERM_DATA` (R123), row number = access code. -/
def defaultData : Vector DataRow 8 := #v[
  ⟨.keyAB, .keyAB, .keyAB, .keyAB, 0⟩,
  ⟨.keyAB, .never, .never, .keyAB, 2⟩,
  ⟨.keyAB, .never, .never, .never, 1⟩,
  ⟨.keyB, .keyB, .never, .never, 1⟩,
  ⟨.keyAB, .keyB, .never, .never, 1⟩,
  ⟨.keyB, .never, .never, .never, 1⟩,
  ⟨.keyAB, .keyB, .keyB, .keyAB, 2⟩,
  ⟨.never, .never, .never, .never, 1⟩]

def defaultTables : PermTables := ⟨defaultTrailer, defaultData⟩

end Sys2Proof.Machine
end

