-- ==== Sys2Proof/Machine/Response.lean ====
section
/-!
DEFINITION. The values that cross BNC's interface as answers (10_state.md R20 to R23): status, character display, the
records of the commands, and the response. A payload exists only under status `OK`, by type, so that no claim can read
one without establishing the status first (60_exceptions.md R157). The packing onto wires is undefined (R9, log 4).
-/

namespace Sys2Proof.Machine

/-- The outcome of a command (R21). -/
inductive Status where
  | ok
  | invalidFormat
  | mismatch67
  | mismatch68
  | mismatch78
  | illegalCmd
  deriving DecidableEq, Repr

/-- The outcomes other than `OK` (60_exceptions.md R135). -/
inductive ErrorStatus where
  | invalidFormat
  | mismatch67
  | mismatch68
  | mismatch78
  | illegalCmd
  deriving DecidableEq, Repr

/-- What a `CharDisplay` stands for (R22). -/
inductive CharKind where
  | literal
  | space
  | delete
  | shyphen
  | xxx
  deriving DecidableEq, Repr

/-- The display form of a byte (R22): `cp` is always the byte the mapping was applied to. -/
structure CharDisplay where
  kind : CharKind
  cp : Byte
  deriving DecidableEq, Repr

/-- The record of ENC, ten fields (40_numeric_codec.md R70). A text's element 0 is its leftmost character (R13). -/
structure ByteEncoding where
  value : Byte
  inverted : Byte
  binary : Vector Byte 8
  binaryInverted : Vector Byte 8
  hex : Vector Byte 2
  hexInverted : Vector Byte 2
  octal : Vector Byte 3
  octalInverted : Vector Byte 3
  char : CharDisplay
  charInverted : CharDisplay
  deriving DecidableEq, Repr

/-- `code[0..3]`: element `b` belongs to block `b`, block 3 is the sector trailer (R23). -/
abbrev AccessCodes := Vector AccessCode 4

/-- What ACCESS answers under `OK` (41_access_rights.md R128): `rows` are those of blocks 0 to 2. -/
structure AccessRecord where
  triple : Triple
  codes : AccessCodes
  rows : Vector DataRow 3
  row3 : TrailerRow
  deriving DecidableEq, Repr

/-- The payload of an `OK` response, one form per row of R20's table. -/
inductive Payload where
  /-- VALID: its whole answer is the status. -/
  | empty
  /-- ENC. -/
  | enc (r : ByteEncoding)
  /-- PARSE. -/
  | triple (t : Triple)
  /-- DERIVE. -/
  | codes (c : AccessCodes)
  /-- LOOKUP with `trl` = 1. -/
  | trow (r : TrailerRow)
  /-- LOOKUP with `trl` = 0. -/
  | drow (r : DataRow)
  /-- ACCESS. -/
  | access (a : AccessRecord)
  deriving DecidableEq, Repr

/-- The response `RESP` (R20). -/
inductive Resp where
  | ok (p : Payload)
  | error (e : ErrorStatus)
  deriving DecidableEq, Repr

/-- The 4-bit code of a status (R21). -/
def Status.code : Status → BitVec 4
  | .ok => 0x0
  | .invalidFormat => 0x1
  | .mismatch67 => 0x2
  | .mismatch68 => 0x3
  | .mismatch78 => 0x4
  | .illegalCmd => 0xF

def ErrorStatus.status : ErrorStatus → Status
  | .invalidFormat => .invalidFormat
  | .mismatch67 => .mismatch67
  | .mismatch68 => .mismatch68
  | .mismatch78 => .mismatch78
  | .illegalCmd => .illegalCmd

/-- The 3-bit code of a display kind (R22). -/
def CharKind.code : CharKind → BitVec 3
  | .literal => 0
  | .space => 1
  | .delete => 2
  | .shyphen => 3
  | .xxx => 4

/-- `text()` (R22): the literal character, or the placeholder's ROM text. PRESUMED by the spec: the
ASCII codes of R13 (log 11). -/
def CharDisplay.text (d : CharDisplay) : List Byte :=
  match d.kind with
  | .literal => [d.cp]
  | .space => [0x73, 0x70, 0x61, 0x63, 0x65]
  | .delete => [0x64, 0x65, 0x6C, 0x65, 0x74, 0x65]
  | .shyphen => [0x73, 0x2E, 0x68, 0x79, 0x70, 0x68, 0x65, 0x6E]
  | .xxx => [0x78, 0x78, 0x78]

/-! The fields of R20's table, read from a response: `none` where the field is absent. -/

def Resp.status : Resp → Status
  | .ok _ => .ok
  | .error e => ErrorStatus.status e

def Resp.payload : Resp → Option Payload
  | .ok p => some p
  | .error _ => none

/-- The fields `value` to `char_inverted`, all ten of which an ENC response has together. -/
def Resp.encoding : Resp → Option ByteEncoding
  | .ok (.enc r) => some r
  | _ => none

/-- The fields `b6`, `b7`, `b8`. -/
def Resp.triple : Resp → Option Triple
  | .ok (.triple t) => some t
  | .ok (.access a) => some a.triple
  | _ => none

/-- The field `code[0..3]`. -/
def Resp.codes : Resp → Option AccessCodes
  | .ok (.codes c) => some c
  | .ok (.access a) => some a.codes
  | _ => none

/-- The field `trow`. -/
def Resp.trow : Resp → Option TrailerRow
  | .ok (.trow r) => some r
  | _ => none

/-- The field `drow`. -/
def Resp.drow : Resp → Option DataRow
  | .ok (.drow r) => some r
  | _ => none

/-- The field `row[0..2]`. -/
def Resp.rows : Resp → Option (Vector DataRow 3)
  | .ok (.access a) => some a.rows
  | _ => none

/-- The field `row3`. -/
def Resp.row3 : Resp → Option TrailerRow
  | .ok (.access a) => some a.row3
  | _ => none

end Sys2Proof.Machine
end

