-- ==== Sys2Proof/Machine/State.lean ====
section
/-!
DEFINITION. The closed system of one BNC instance, its build's tables and its host (00_scope.md R4, R5). The instance
itself has no state at all (10_state.md R15 to R19): its type is the record without fields, `Bnc`. The other fields are
the environment and the configuration of R28; they stand beside the instance because `Host.Core`'s step has no other
argument (log 1).
-/

namespace Sys2Proof.Machine

/-- The architectural state of one BNC instance: none (R15, "the unit type"). -/
structure Bnc where
  deriving DecidableEq, Repr

/-- What the host does next at the interface. -/
inductive HostAction where
  /-- Present a command word (R25). -/
  | command (w : Word)
  /-- Reset the instance between two commands, never inside one (70_reset_and_hazards.md R160; DEDUCED, log 8). -/
  | reset
  deriving DecidableEq, Repr

/-- Why a step stops the machine: never. Every outcome of a command is a status of its response (60_exceptions.md R135,
R143, R157), so the type has no constructor and nothing raises it (safe: there is nothing to raise; log 5). -/
inductive Fault where
  deriving DecidableEq, Repr

/-- Why a step gives an instruction no meaning. -/
inductive Refusal where
  /-- Raised by an arm of `exec` that has no meaning yet; no arm is left that raises it (safe). -/
  | notModelled (mnemonic : String)
  deriving DecidableEq, Repr

/-- One instance, its tables and its host's side of the interface. -/
structure State where
  /-- The instance (R15). -/
  bnc : Bnc
  /-- The ROM constants the build is configured with (R26); no command writes them. -/
  rom : PermTables
  /-- What the host will still do, oldest first (R5, R16, R25). -/
  stream : List HostAction
  /-- The responses so far, in command order (R5). -/
  responses : List Resp
  deriving DecidableEq, Repr

/-- The machine right after reset (R27, R161): an instance without state, no response yet, the tables as configured
(PRESUMED the default of R122 and R123, log 2) and nothing presented yet (log 3). -/
def State.reset : State where
  bnc := {}
  rom := defaultTables
  stream := []
  responses := []

end Sys2Proof.Machine
end

