-- ==== Sys2Proof/Machine/Ops.lean ====
section
/-!
DEFINITION. The shared operations: `respond`, which ends a command (00_scope.md R14, 60_exceptions.md R140), and the
nibbles of a byte (R10). BNC has no register file, no memory and no trap (R15, R30, R135), so there is no operation over
any of them: `respond` with an error status is all that an erring command does.
-/

namespace Sys2Proof.Machine

/-- End the command with response `r` (R14): the host receives it after the responses of the earlier commands (R5, R16,
R40). Nothing else changes (R140, R142). -/
def State.respond (s : State) (r : Resp) : State := { s with responses := s.responses ++ [r] }

/-- `v[7:4]` (R10). -/
def hiNibble (v : Byte) : Nibble := v.extractLsb' 4 4

/-- `v[3:0]` (R10). -/
def loNibble (v : Byte) : Nibble := v.extractLsb' 0 4

/-- `v[i]` as a 1-bit value (R10). -/
def bit (v : Byte) (i : Nat) : BitVec 1 := v.extractLsb' i 1

/-- What the reset of the instance leaves (R160): there is no state to change, so the only value there is. -/
def Bnc.afterReset (_ : Bnc) : Bnc := {}

end Sys2Proof.Machine
end

