-- ==== Sys2Proof/Machine/Flags.lean ====
section
/-!
DEFINITION. BNC has no flag (10_state.md R17); what other machines compute into flags it computes into the status of
the response. This file holds the one such computation: the complement checksum (41_access_rights.md R100 to R102).
-/

namespace Sys2Proof.Machine

/-- C1 check: `b7[7:4] == ~b6[3:0]` (R100). -/
def c1Holds (t : Triple) : Bool := hiNibble t.b7 == ~~~ loNibble t.b6

/-- C2 check: `b8[3:0] == ~b6[7:4]` (R100). -/
def c2Holds (t : Triple) : Bool := loNibble t.b8 == ~~~ hiNibble t.b6

/-- C3 check: `b8[7:4] == ~b7[3:0]` (R100). -/
def c3Holds (t : Triple) : Bool := hiNibble t.b8 == ~~~ loNibble t.b7

/-- The first failing check in the order C1, C2, C3 (R101, R102); `none` where all hold. -/
def checksum (t : Triple) : Option ErrorStatus :=
  if c1Holds t then
    if c2Holds t then
      if c3Holds t then none else some .mismatch78
    else some .mismatch68
  else some .mismatch67

end Sys2Proof.Machine
end

