-- ==== Sys2Proof/Machine/Operands.lean ====
section
/-!
DEFINITION. The one operand form that is not used as it stands: the string of six hexadecimal characters
(30_encoding.md R53, 41_access_rights.md R97 to R99, 20_memory.md R35).
-/

namespace Sys2Proof.Machine

/-- `hexval(c)` (R97): the value of a hexadecimal character, either case. PRESUMED by the spec: the ASCII codes of R13
(log 11). -/
def hexval (c : Byte) : Option Nibble :=
  if 0x30 ≤ c ∧ c ≤ 0x39 then some ((c - 0x30).setWidth 4)
  else if 0x41 ≤ c ∧ c ≤ 0x46 then some ((c - 0x41 + 10).setWidth 4)
  else if 0x61 ≤ c ∧ c ≤ 0x66 then some ((c - 0x61 + 10).setWidth 4)
  else none

/-- The byte of one pair of characters, the first the high nibble (R35). -/
def hexByte (c d : Byte) : Option Byte :=
  match hexval c, hexval d with
  | some h, some l => some (h ++ l)
  | _, _ => none

/-- The triple of a string operand, or `none` where the operand is not well formed (R98): the length must be 6 and all
six characters hexadecimal; a slot is looked at only when the length is 6 (R53). -/
def parseTriple (s : StrOperand) : Option Triple :=
  if s.len = 6 then
    match hexByte s.ch0 s.ch1, hexByte s.ch2 s.ch3, hexByte s.ch4 s.ch5 with
    | some b6, some b7, some b8 => some ⟨b6, b7, b8⟩
    | _, _, _ => none
  else none

end Sys2Proof.Machine
end

