-- ==== Sys2Proof/Machine/AccessRights.lean ====
section
/-!
DEFINITION. The access-rights unit ARD and its commands PARSE, VALID, DERIVE, LOOKUP and ACCESS (41_access_rights.md
R95 to R131). All bit positions are LSB-0 (00_scope.md R10, R11; 90_conflicts.md C1).
-/

namespace Sys2Proof.Machine

/-- `PARSE`'s answer (R99). -/
def parseResp (str : StrOperand) : Resp :=
  match parseTriple str with
  | some t => .ok (.triple t)
  | none => .error .invalidFormat

/-- `PARSE "text"` (R99). -/
def execParse (str : StrOperand) (s : State) : Host.Outcome State Fault Refusal :=
  .next (s.respond (parseResp str))

/-- `VALID`'s answer (R106): no payload on any status. -/
def validResp (t : Triple) : Resp :=
  match checksum t with
  | some e => .error e
  | none => .ok .empty

/-- `VALID b6, b7, b8` (R106). -/
def execValid (t : Triple) (s : State) : Host.Outcome State Fault Refusal :=
  .next (s.respond (validResp t))

/-- The access code of block `b` (R110): `b7[4+b] ++ b8[b] ++ b8[4+b]`, from the direct copies only. -/
def accessCode (t : Triple) (b : Nat) : AccessCode := bit t.b7 (4 + b) ++ bit t.b8 b ++ bit t.b8 (4 + b)

/-- The four codes (R112). -/
def accessCodes (t : Triple) : AccessCodes :=
  #v[accessCode t 0, accessCode t 1, accessCode t 2, accessCode t 3]

/-- `DERIVE b6, b7, b8` (R111, R112): total, never gated by validation. -/
def execDerive (t : Triple) (s : State) : Host.Outcome State Fault Refusal :=
  .next (s.respond (.ok (.codes (accessCodes t))))

/-- `PERM_TRAILER[code]` (R118). -/
def trailerRow (rom : PermTables) (code : AccessCode) : TrailerRow := rom.trailer.get code.toFin

/-- `PERM_DATA[code]` (R118). -/
def dataRow (rom : PermTables) (code : AccessCode) : DataRow := rom.data.get code.toFin

/-- `LOOKUP`'s answer (R118, R119). -/
def lookupResp (rom : PermTables) (trl : Bool) (code : AccessCode) : Resp :=
  if trl then .ok (.trow (trailerRow rom code)) else .ok (.drow (dataRow rom code))

/-- `LOOKUP.T code`, `LOOKUP.D code` (R119). -/
def execLookup (trl : Bool) (code : AccessCode) (s : State) : Host.Outcome State Fault Refusal :=
  .next (s.respond (lookupResp s.rom trl code))

/-- The record of a triple that passed validation (R128): blocks 0 to 2 with data-block semantics, block 3 with
sector-trailer semantics. -/
def accessRecord (rom : PermTables) (t : Triple) : AccessRecord where
  triple := t
  codes := accessCodes t
  rows := #v[dataRow rom (accessCode t 0), dataRow rom (accessCode t 1), dataRow rom (accessCode t 2)]
  row3 := trailerRow rom (accessCode t 3)

/-- `ACCESS`'s answer (R126, R128): validation gates the derive and lookup steps. -/
def accessResp (rom : PermTables) (str : StrOperand) : Resp :=
  match parseTriple str with
  | none => .error .invalidFormat
  | some t =>
    match checksum t with
    | some e => .error e
    | none => .ok (.access (accessRecord rom t))

/-- `ACCESS "text"` (R128). -/
def execAccess (str : StrOperand) (s : State) : Host.Outcome State Fault Refusal :=
  .next (s.respond (accessResp s.rom str))

end Sys2Proof.Machine
end

