-- ==== Sys2Proof/Machine/Codec.lean ====
section
/-!
DEFINITION. The numeric codec unit NC and its command ENC (40_numeric_codec.md R70 to R86).
-/

namespace Sys2Proof.Machine

/-! Digit characters (R72). PRESUMED by the spec: the ASCII codes of R13 (log 11). -/

def digit2 (d : BitVec 1) : Byte := 0x30 + d.setWidth 8

def digit8 (d : BitVec 3) : Byte := 0x30 + d.setWidth 8

def digit16 (d : Nibble) : Byte :=
  if d ≤ 9 then 0x30 + d.setWidth 8 else 0x41 + (d.setWidth 8 - 10)

/-- `bin8(v)` (R74): most significant bit leftmost (R34). -/
def bin8 (v : Byte) : Vector Byte 8 :=
  #v[digit2 (bit v 7), digit2 (bit v 6), digit2 (bit v 5), digit2 (bit v 4),
    digit2 (bit v 3), digit2 (bit v 2), digit2 (bit v 1), digit2 (bit v 0)]

/-- `hex2(v)` (R75). -/
def hex2 (v : Byte) : Vector Byte 2 := #v[digit16 (hiNibble v), digit16 (loNibble v)]

/-- `oct3(v)` (R76): the leftmost digit is made of two bits. -/
def oct3 (v : Byte) : Vector Byte 3 :=
  #v[digit8 ((v.extractLsb' 6 2).setWidth 3), digit8 (v.extractLsb' 3 3), digit8 (v.extractLsb' 0 3)]

/-! The printable ranges and the substituted codes. UNVERIFIED: the spec calls the source's numbers unaudited
(91_not_in_source.md N19, log 13), so they are named here. -/

/-- The ranges within which `charmap_v` is defined (R78). -/
def valueRanges : List (Byte × Byte) := [(32, 127), (161, 255)]

/-- The ranges within which `charmap_i` is defined (R79). -/
def invertedRanges : List (Byte × Byte) := [(32, 135), (160, 255)]

def spaceCode : Byte := 32

def deleteCode : Byte := 127

def softHyphenCode : Byte := 173

def inRanges (rs : List (Byte × Byte)) (v : Byte) : Bool :=
  rs.any fun r => decide (r.1 ≤ v) && decide (v ≤ r.2)

/-- The mapping of the original byte (R78). -/
def charmapV (v : Byte) : CharDisplay :=
  if inRanges valueRanges v then
    if v = spaceCode then ⟨.space, v⟩
    else if v = deleteCode then ⟨.delete, v⟩
    else if v = softHyphenCode then ⟨.shyphen, v⟩
    else ⟨.literal, v⟩
  else ⟨.xxx, v⟩

/-- The mapping of the inverted byte (R79); that it differs from `charmapV` is normative (R80). -/
def charmapI (w : Byte) : CharDisplay :=
  if inRanges invertedRanges w then ⟨.literal, w⟩ else ⟨.xxx, w⟩

/-- `encode(byte)` (R70, R71, R77, R82). -/
def encodeByte (v : Byte) : ByteEncoding :=
  let w := ~~~ v
  { value := v
    inverted := w
    binary := bin8 v
    binaryInverted := bin8 w
    hex := hex2 v
    hexInverted := hex2 w
    octal := oct3 v
    octalInverted := oct3 w
    char := charmapV v
    charInverted := charmapI w }

/-- The answer to `ENC val` (R81, R82). -/
def encResp (val : BitVec 16) : Resp :=
  if 255 < val then .error .invalidFormat else .ok (.enc (encodeByte (val.extractLsb' 0 8)))

/-- `ENC val` (R82). -/
def execEnc (val : BitVec 16) (s : State) : Host.Outcome State Fault Refusal :=
  .next (s.respond (encResp val))

end Sys2Proof.Machine
end

