-- ==== Sys2Proof/Machine/Dispatch.lean ====
section
/-!
DEFINITION. One arm per command (30_encoding.md R48), each one direct call of its meaning.
-/

namespace Sys2Proof.Machine

def exec (i : Instr) (s : State) : Host.Outcome State Fault Refusal :=
  match i with
  | .enc val => Sys2Proof.Machine.execEnc val s
  | .parse str => Sys2Proof.Machine.execParse str s
  | .valid t => Sys2Proof.Machine.execValid t s
  | .derive t => Sys2Proof.Machine.execDerive t s
  | .lookup trl code => Sys2Proof.Machine.execLookup trl code s
  | .access str => Sys2Proof.Machine.execAccess str s

end Sys2Proof.Machine
end

