-- ==== Sys2Proof/Machine/Execute.lean ====
section
/-!
DEFINITION. What one host action does (30_encoding.md R61, 70_reset_and_hazards.md R160): step only calls these.
-/

namespace Sys2Proof.Machine

/-- Execute a command word: a legal word is its command, an illegal word answers `ILLEGAL_CMD` without payload and does
nothing else (R58, R60, R61). -/
def executeWord (w : Word) (s : State) : Host.Outcome State Fault Refusal :=
  match decode w with
  | .instr i => exec i s
  | .illegal _ => .next (s.respond (.error .illegalCmd))

/-- Reset the instance (R160): no response, the tables, the host's stream and its received responses untouched. -/
def resetInstance (s : State) : Host.Outcome State Fault Refusal :=
  .next { s with bnc := s.bnc.afterReset }

/-- The host takes the first action off its stream. -/
def performAction (a : HostAction) (s : State) : Host.Outcome State Fault Refusal :=
  match a with
  | .command w => executeWord w s
  | .reset => resetInstance s

/-- With nothing presented no command is executed: nothing changes (log 3). -/
def idle (s : State) : Host.Outcome State Fault Refusal := .next s

/-- The host presents `w` next (R25), before what its stream already holds. -/
def presentNext (w : Word) (s : State) : State := { s with stream := .command w :: s.stream }

end Sys2Proof.Machine
end

