-- ==== Sys2Proof/Machine/Step.lean ====
section
/-!
DEFINITION. One step: the host's next action, whole (00_scope.md R5, 20_memory.md R39). After the command at position k
the next one is at position k+1, whatever the outcome (10_state.md R16).
-/

namespace Sys2Proof.Machine

def step (s : State) : Host.Outcome State Fault Refusal :=
  match s.stream with
  | [] => idle s
  | a :: rest => performAction a { s with stream := rest }

/-- `s` with the word of `nbits` bits presented next (log 3: BNC fetches nothing, the host hands each word over). -/
def State.withFetchWord (s : State) (nbits w : Nat) : State :=
  presentNext (BitVec.ofNat 64 (w % 2 ^ nbits)) s

end Sys2Proof.Machine
end

