-- ==== Sys2Proof/Machine/Assembly.lean ====
section
/-!
DEFINITION. The assembler syntax of the spec (30_encoding.md R63, log 10): the lines a program is written in, which
operands they admit, and the word each assembles to.
-/

namespace Sys2Proof.Machine

/-- One line of a program (R63). -/
inductive AsmLine where
  /-- `ENC n` -/
  | enc (n : Nat)
  /-- `PARSE "text"` -/
  | parse (text : List Byte)
  /-- `ACCESS "text"` -/
  | access (text : List Byte)
  /-- `VALID x, y, z` -/
  | valid (x y z : Nat)
  /-- `DERIVE x, y, z` -/
  | derive (x y z : Nat)
  /-- `LOOKUP.T c` -/
  | lookupT (c : Nat)
  /-- `LOOKUP.D c` -/
  | lookupD (c : Nat)
  /-- `.word w` -/
  | word (w : Word)
  deriving DecidableEq, Repr

/-- The operands R63 admits: n up to 65535, texts of up to 255 characters, bytes up to 255, codes up to 7. -/
def AsmLine.wellFormed : AsmLine → Bool
  | .enc n => decide (n ≤ 65535)
  | .parse text => decide (text.length ≤ 255)
  | .access text => decide (text.length ≤ 255)
  | .valid x y z => decide (x ≤ 255 ∧ y ≤ 255 ∧ z ≤ 255)
  | .derive x y z => decide (x ≤ 255 ∧ y ≤ 255 ∧ z ≤ 255)
  | .lookupT c => decide (c ≤ 7)
  | .lookupD c => decide (c ≤ 7)
  | .word _ => true

/-- The string operand of a text (R63): its length, its first six characters, 0x00 in every other slot. -/
def operandOfText (text : List Byte) : StrOperand where
  len := BitVec.ofNat 8 text.length
  ch0 := text.getD 0 0
  ch1 := text.getD 1 0
  ch2 := text.getD 2 0
  ch3 := text.getD 3 0
  ch4 := text.getD 4 0
  ch5 := text.getD 5 0

def tripleOfNats (x y z : Nat) : Triple := ⟨BitVec.ofNat 8 x, BitVec.ofNat 8 y, BitVec.ofNat 8 z⟩

/-- The word a line assembles to (R63); `none` for a line the syntax does not admit. -/
def assemble (a : AsmLine) : Option Word :=
  if a.wellFormed then
    some <|
      match a with
      | .enc n => encode (.enc (BitVec.ofNat 16 n))
      | .parse text => encode (.parse (operandOfText text))
      | .access text => encode (.access (operandOfText text))
      | .valid x y z => encode (.valid (tripleOfNats x y z))
      | .derive x y z => encode (.derive (tripleOfNats x y z))
      | .lookupT c => encode (.lookup true (BitVec.ofNat 3 c))
      | .lookupD c => encode (.lookup false (BitVec.ofNat 3 c))
      | .word w => w
  else none

end Sys2Proof.Machine
end

