-- ==== Sys2Proof/Machine/Pipeline.lean ====
section
/-!
DEFINITION. The host's program of primitive commands that ACCESS agrees with (41_access_rights.md R130): PARSE, VALID,
DERIVE and four LOOKUPs, each built from the responses before it (92_eei_decisions.md D23), stopping at the first status
that is not `OK`.
-/

namespace Sys2Proof.Machine

/-- Issue one command and receive its response, which is the last one then; `none` where no command would answer. -/
def issue (i : Instr) (s : State) : Option (Resp × State) :=
  match exec i s with
  | .next u => u.responses.getLast?.map fun r => (r, u)
  | .fault _ => none
  | .refused _ => none

/-- The data row that `LOOKUP.D code` answers. -/
def issueDataRow (code : AccessCode) (s : State) : Option (DataRow × State) :=
  match issue (.lookup false code) s with
  | some (.ok (.drow r), u) => some (r, u)
  | _ => none

/-- The trailer row that `LOOKUP.T code` answers. -/
def issueTrailerRow (code : AccessCode) (s : State) : Option (TrailerRow × State) :=
  match issue (.lookup true code) s with
  | some (.ok (.trow r), u) => some (r, u)
  | _ => none

/-- r4 to r7 of R130: the rows of the four codes. -/
def issueLookups (t : Triple) (cs : AccessCodes) (s : State) : Option Resp := do
  let (r4, s) ← issueDataRow cs[0] s
  let (r5, s) ← issueDataRow cs[1] s
  let (r6, s) ← issueDataRow cs[2] s
  let (r7, _) ← issueTrailerRow cs[3] s
  some (.ok (.access ⟨t, cs, #v[r4, r5, r6], r7⟩))

/-- r3 of R130. -/
def issueDerive (t : Triple) (s : State) : Option Resp :=
  match issue (.derive t) s with
  | some (.ok (.codes cs), u) => issueLookups t cs u
  | some (r, _) => some r
  | none => none

/-- r2 of R130: the host gates on validation (70_reset_and_hazards.md R166). -/
def issueValid (t : Triple) (s : State) : Option Resp :=
  match issue (.valid t) s with
  | some (.ok _, u) => issueDerive t u
  | some (r, _) => some r
  | none => none

/-- The whole sequence: what the host collects for a string operand. -/
def pipeline (str : StrOperand) (s : State) : Option Resp :=
  match issue (.parse str) s with
  | some (.ok (.triple t), u) => issueValid t u
  | some (r, _) => some r
  | none => none

end Sys2Proof.Machine
end

