-- ==== Sys2Proof/Machine/System.lean ====
section
/-!
DEFINITION. Several instances side by side (20_memory.md R41, 60_exceptions.md R155): `N_INSTANCES` is a parameter
(R9), the instances share nothing writable, and a schedule says which one moves next (log 6). The host's own machine,
`Sys2Proof.core`, is one instance.
-/

namespace Sys2Proof.Machine

/-- One instance with its host port per entry. -/
abbrev System := List State

/-- The state after one step; a state whose step stopped would stay (none does, R143). -/
def advance (s : State) : State :=
  match step s with
  | .next u => u
  | .fault _ => s
  | .refused _ => s

/-- `N_INSTANCES` instances right after reset, all in the same condition (R155). -/
def System.start (n : Nat := Config.defaultInstances) : System := List.replicate n State.reset

/-- Instance `k` takes one step; there is no instance beyond the last. -/
def System.stepAt (k : Nat) (y : System) : System := y.modify k advance

/-- The steps of a schedule, in its order. -/
def System.run (y : System) (schedule : List Nat) : System := schedule.foldl (fun z k => System.stepAt k z) y

/-- `n` steps of one instance on its own. -/
def runAlone : Nat → State → State
  | 0, s => s
  | n + 1, s => runAlone n (advance s)

end Sys2Proof.Machine
end

