-- ==== Sys2Proof/Safety.lean ====
section
/-!
DEFINITION. The vocabulary of claims. It says in plain arithmetic on natural numbers, from the spec's tables and
equivalent forms, what the machine computes with bit vectors, so that a claim compares the model with the spec and not
with itself. BNC has no unsafe run (60_exceptions.md R143); what a run must keep is that every response the host holds is
sound (`Inv`).
-/

namespace Sys2Proof.Safety

open Sys2Proof.Machine

/-! ## Characters and strings -/

/-- Character `c` is a hexadecimal digit of value `n`, in either case (41_access_rights.md R97). -/
def HexDigit (c : Byte) (n : Nat) : Prop :=
  (n ≤ 9 ∧ c.toNat = 0x30 + n) ∨
    (10 ≤ n ∧ n ≤ 15 ∧ (c.toNat + 10 = 0x41 + n ∨ c.toNat + 10 = 0x61 + n))

/-- A well-formed string operand: the declared length is 6 and all six characters are hexadecimal (R98). -/
def SixHexDigits (str : StrOperand) : Prop :=
  str.len.toNat = 6 ∧
    ∀ c ∈ [str.ch0, str.ch1, str.ch2, str.ch3, str.ch4, str.ch5], ∃ n, HexDigit c n

/-- The six characters spell the triple, the first of each pair the high digit (R35, R99). -/
def SpellsTriple (str : StrOperand) (t : Triple) : Prop :=
  ∃ h0 h1 h2 h3 h4 h5 : Nat,
    HexDigit str.ch0 h0 ∧ HexDigit str.ch1 h1 ∧ HexDigit str.ch2 h2 ∧
    HexDigit str.ch3 h3 ∧ HexDigit str.ch4 h4 ∧ HexDigit str.ch5 h5 ∧
    t.b6.toNat = 16 * h0 + h1 ∧ t.b7.toNat = 16 * h2 + h3 ∧ t.b8.toNat = 16 * h4 + h5

/-- The same character, or the same letter of `A` to `F` in the other case (R97). -/
def SameUpToCase (c d : Byte) : Prop :=
  c = d ∨
    (0x41 ≤ c.toNat ∧ c.toNat ≤ 0x46 ∧ d.toNat = c.toNat + 0x20) ∨
    (0x41 ≤ d.toNat ∧ d.toNat ≤ 0x46 ∧ c.toNat = d.toNat + 0x20)

/-! ## The numeric codec -/

/-- Character `c` is the upper-case hexadecimal digit of value `n` (40_numeric_codec.md R72). -/
def UpperDigit (c : Byte) (n : Nat) : Prop :=
  c.toNat = if n ≤ 9 then 0x30 + n else 0x41 + (n - 10)

/-- The table "by value of `v`" of R78. -/
def kindOfValue (v : Nat) : CharKind :=
  if v ≤ 31 then .xxx
  else if v = 32 then .space
  else if v ≤ 126 then .literal
  else if v = 127 then .delete
  else if v ≤ 160 then .xxx
  else if v ≤ 172 then .literal
  else if v = 173 then .shyphen
  else .literal

/-- The table "by value of `w`" of R79. -/
def kindOfInverted (w : Nat) : CharKind :=
  if w ≤ 31 then .xxx
  else if w ≤ 135 then .literal
  else if w ≤ 159 then .xxx
  else .literal

/-- The three digit texts of the number `v`: bases 2, 16 and 8, most significant digit leftmost, leading zeros kept (R34,
R74 to R76). -/
def DigitTexts (v : Nat) (binary : Vector Byte 8) (hex : Vector Byte 2) (octal : Vector Byte 3) : Prop :=
  (∀ i : Fin 8, (binary.get i).toNat = 0x30 + v / 2 ^ (7 - i.val) % 2) ∧
  (∀ i : Fin 2, UpperDigit (hex.get i) (v / 16 ^ (1 - i.val) % 16)) ∧
  (∀ i : Fin 3, (octal.get i).toNat = 0x30 + v / 8 ^ (2 - i.val) % 8)

/-- `r` is the record of the byte `v` (R70, R71, R74 to R79). -/
def EncodesByte (v : Nat) (r : ByteEncoding) : Prop :=
  r.value.toNat = v ∧ r.inverted.toNat = 255 - v ∧
  DigitTexts v r.binary r.hex r.octal ∧
  DigitTexts (255 - v) r.binaryInverted r.hexInverted r.octalInverted ∧
  r.char.kind = kindOfValue v ∧ r.char.cp.toNat = v ∧
  r.charInverted.kind = kindOfInverted (255 - v) ∧ r.charInverted.cp.toNat = 255 - v

/-! ## Access rights -/

/-- The C1 relation: the high nibble of byte 7 is 15 less the low nibble of byte 6 (R100, nibble complement). -/
abbrev C1 (t : Triple) : Prop := t.b7.toNat / 16 = 15 - t.b6.toNat % 16

/-- The C2 relation: the low nibble of byte 8 is 15 less the high nibble of byte 6 (R100). -/
abbrev C2 (t : Triple) : Prop := t.b8.toNat % 16 = 15 - t.b6.toNat / 16

/-- The C3 relation: the high nibble of byte 8 is 15 less the low nibble of byte 7 (R100). -/
abbrev C3 (t : Triple) : Prop := t.b8.toNat / 16 = 15 - t.b7.toNat % 16

/-- `cs` are the codes of `t` by R110: 4 * C1 + 2 * C2 + C3 with C1 bit 4+b of byte 7, C2 bit b and C3 bit 4+b of
byte 8. -/
def DerivesCodes (t : Triple) (cs : AccessCodes) : Prop :=
  ∀ b : Fin 4,
    (cs.get b).toNat =
      4 * (t.b7.toNat / 2 ^ (4 + b.val) % 2) + 2 * (t.b8.toNat / 2 ^ b.val % 2)
        + t.b8.toNat / 2 ^ (4 + b.val) % 2

/-- Row number `code` of the trailer table is `row` (R118). -/
def TrailerRowIs (rom : PermTables) (code : AccessCode) (row : TrailerRow) : Prop :=
  rom.trailer.toList[code.toNat]? = some row

/-- Row number `code` of the data table is `row` (R118). -/
def DataRowIs (rom : PermTables) (code : AccessCode) (row : DataRow) : Prop :=
  rom.data.toList[code.toNat]? = some row

/-- `a` is the record ACCESS answers for `t` with the tables `rom` (R128). -/
def RecordsAccess (rom : PermTables) (t : Triple) (a : AccessRecord) : Prop :=
  a.triple = t ∧ DerivesCodes t a.codes ∧
  (∀ b : Fin 3, DataRowIs rom (a.codes.get (b.castLE (by omega))) (a.rows.get b)) ∧
  TrailerRowIs rom (a.codes.get 3) a.row3

/-! ## Command words as numbers -/

/-- `op` of a word (30_encoding.md R46). -/
abbrev opOf (w : Word) : Nat := w.toNat / 2 ^ 56

/-- The `width` bits of a word from bit `lo` up (R10). -/
abbrev bitsOf (w : Word) (lo width : Nat) : Nat := w.toNat / 2 ^ lo % 2 ^ width

/-- `op` selects no command (R60). -/
def ReservedOp (w : Word) : Prop := opOf w = 0 ∨ 7 ≤ opOf w

/-- A set bit in the `zero` field of formats V, T or L (R58). -/
def ZeroFieldSet (w : Word) : Prop :=
  (opOf w = 1 ∧ bitsOf w 16 40 ≠ 0) ∨
  ((opOf w = 3 ∨ opOf w = 4) ∧ bitsOf w 24 32 ≠ 0) ∨
  (opOf w = 5 ∧ bitsOf w 4 52 ≠ 0)

/-- Every word of command `op` with a set bit among the `width` bits from `lo` up answers `ILLEGAL_CMD` and nothing else
happens (R58). -/
def RejectsSetZeroField (op lo width : Nat) : Prop :=
  ∀ (s : State) (w : Word) (rest : List HostAction),
    s.stream = .command w :: rest → opOf w = op → bitsOf w lo width ≠ 0 →
      step s = .next ({ s with stream := rest }.respond (.error .illegalCmd))

/-- Character slot `i` of format S as a character (R52). -/
def slotOf (w : Word) (i : Nat) : Byte := BitVec.ofNat 8 (bitsOf w (40 - 8 * i) 8)

/-- The word carries the bytes `b6`, `b7`, `b8` to be validated: VALID's own, or the ones ACCESS's six hexadecimal
characters spell (60_exceptions.md R145, items 4 to 6). -/
def ValidatedBytes (w : Word) (b6 b7 b8 : Nat) : Prop :=
  (opOf w = 3 ∧ b6 = bitsOf w 16 8 ∧ b7 = bitsOf w 8 8 ∧ b8 = bitsOf w 0 8) ∨
  (opOf w = 6 ∧ ∃ h0 h1 h2 h3 h4 h5 : Nat,
    HexDigit (slotOf w 0) h0 ∧ HexDigit (slotOf w 1) h1 ∧ HexDigit (slotOf w 2) h2 ∧
    HexDigit (slotOf w 3) h3 ∧ HexDigit (slotOf w 4) h4 ∧ HexDigit (slotOf w 5) h5 ∧
    b6 = 16 * h0 + h1 ∧ b7 = 16 * h2 + h3 ∧ b8 = 16 * h4 + h5)

/-- Item 3 of R145: ENC's value is no byte, or a string operand is not six hexadecimal characters. -/
def BadFormat (w : Word) : Prop :=
  (opOf w = 1 ∧ 255 < bitsOf w 0 16) ∨
  ((opOf w = 2 ∨ opOf w = 6) ∧
    (bitsOf w 48 8 ≠ 6 ∨ ∃ i, i < 6 ∧ ∀ n, ¬ HexDigit (slotOf w i) n))

/-- The six causes of R145, in its order, each with the status it is reported as. -/
def causes (w : Word) : List (Prop × Status) := [
  (ReservedOp w, .illegalCmd),
  (ZeroFieldSet w, .illegalCmd),
  (BadFormat w, .invalidFormat),
  (∃ b6 b7 b8, ValidatedBytes w b6 b7 b8 ∧ b7 / 16 ≠ 15 - b6 % 16, .mismatch67),
  (∃ b6 b7 b8, ValidatedBytes w b6 b7 b8 ∧ b8 % 16 ≠ 15 - b6 / 16, .mismatch68),
  (∃ b6 b7 b8, ValidatedBytes w b6 b7 b8 ∧ b8 / 16 ≠ 15 - b7 % 16, .mismatch78)]

/-- The status of the first cause that applies, `OK` where none does. -/
def FirstCause : List (Prop × Status) → Status → Prop
  | [], st => st = .ok
  | (cause, report) :: rest, st => (cause ∧ st = report) ∨ (¬ cause ∧ FirstCause rest st)

/-! ## Statuses -/

/-- The table "produced by" of R21, for the statuses a command answers itself. -/
def MayAnswer (i : Instr) : Status → Prop
  | .ok => True
  | .invalidFormat => (∃ val, i = .enc val) ∨ ∃ str, i = .parse str ∨ i = .access str
  | .mismatch67 | .mismatch68 | .mismatch78 => (∃ t, i = .valid t) ∨ ∃ str, i = .access str
  | .illegalCmd => False

/-! ## What every run keeps -/

/-- A response that some command can have been answered with, the tables being `rom`: an ENC record belongs to its own
value, an ACCESS record to its own triple, which satisfies the three relations, and a looked-up row is in its table. -/
def SoundResp (rom : PermTables) : Resp → Prop
  | .ok .empty => True
  | .ok (.enc r) => EncodesByte r.value.toNat r
  | .ok (.triple _) => True
  | .ok (.codes _) => True
  | .ok (.trow row) => row ∈ rom.trailer.toList
  | .ok (.drow row) => row ∈ rom.data.toList
  | .ok (.access a) => C1 a.triple ∧ C2 a.triple ∧ C3 a.triple ∧ RecordsAccess rom a.triple a
  | .error _ => True

/-- Every response the host has received is sound. -/
def Inv (s : State) : Prop := ∀ r ∈ s.responses, SoundResp s.rom r

/-- `k` steps in a row, stopping where a step stops (none does, R143). -/
def runSteps : Nat → State → Host.Outcome State Fault Refusal
  | 0, s => .next s
  | k + 1, s =>
    match step s with
    | .next u => runSteps k u
    | .fault r => .fault r
    | .refused r => .refused r

end Sys2Proof.Safety
end

