-- ==== Sys2Proof/Certificates/Slice0/Obligations.lean ====
section
/-!
DEFINITION. The statements for the provers. The first lines of each docstring say which sentence of the spec it
formalises. A conclusion `exec i s = .next (s.respond r)` says all of it at once: the command completes, its one response
is `r`, after the earlier ones, and nothing else changes.
-/

open Sys2Proof Sys2Proof.Machine Sys2Proof.Safety

/-! ## Words and commands -/

/-- The next command word, when it decodes to a command, is executed as that command on the rest of the stream (R61 step
3, R16). -/
def Obligations.FetchedCommandRunsItsInstruction : Prop :=
  ∀ (s : State) (w : Word) (rest : List HostAction) (i : Instr),
    s.stream = .command w :: rest → decode w = .instr i → step s = exec i { s with stream := rest }

/-- Reserved `op` values and set `zero` bits answer `ILLEGAL_CMD` without payload, and nothing else happens (R58, R60). -/
def Obligations.IllegalWordsAnswerIllegalCmd : Prop :=
  ∀ (s : State) (w : Word) (rest : List HostAction),
    s.stream = .command w :: rest → ReservedOp w ∨ ZeroFieldSet w →
      step s = .next ({ s with stream := rest }.respond (.error .illegalCmd))

/-- Of several causes the first in the order of R145 is reported, for every one of the 2^64 words. -/
def Obligations.StatusIsTheFirstCause : Prop :=
  ∀ (s : State) (w : Word) (rest : List HostAction),
    s.stream = .command w :: rest →
      ∃ r, step s = .next ({ s with stream := rest }.respond r) ∧ FirstCause (causes w) r.status

/-- The decoder accepts exactly the words of the opcode table's rows. -/
def Obligations.DecoderAcceptsExactlyTheTable : Prop :=
  ∀ w : Word, (∃ i, decode w = .instr i) ↔ legalWord w = true

/-- Decoding an encoded command gives it back. -/
def Obligations.DecodeOfEncode : Prop := ∀ i : Instr, decode (encode i) = .instr i

/-- A word that decodes to a command is the encoding of that command: no bit of a legal word is dropped. -/
def Obligations.EncodeOfDecode : Prop := ∀ (w : Word) (i : Instr), decode w = .instr i → encode i = w

/-- The field positions of formats V, S, T and L (R50, R52, R54, R56), as sums of weighted fields. -/
def Obligations.EncodedFieldsStandInPlace : Prop :=
  (∀ val : BitVec 16, (encode (.enc val)).toNat = 0x01 * 2 ^ 56 + val.toNat) ∧
  (∀ str : StrOperand,
    let chars := str.len.toNat * 2 ^ 48 + str.ch0.toNat * 2 ^ 40 + str.ch1.toNat * 2 ^ 32 + str.ch2.toNat * 2 ^ 24
      + str.ch3.toNat * 2 ^ 16 + str.ch4.toNat * 2 ^ 8 + str.ch5.toNat
    (encode (.parse str)).toNat = 0x02 * 2 ^ 56 + chars ∧ (encode (.access str)).toNat = 0x06 * 2 ^ 56 + chars) ∧
  (∀ t : Triple,
    let bytes := t.b6.toNat * 2 ^ 16 + t.b7.toNat * 2 ^ 8 + t.b8.toNat
    (encode (.valid t)).toNat = 0x03 * 2 ^ 56 + bytes ∧ (encode (.derive t)).toNat = 0x04 * 2 ^ 56 + bytes) ∧
  (∀ (trl : Bool) (code : AccessCode),
    (encode (.lookup trl code)).toNat = 0x05 * 2 ^ 56 + trl.toNat * 2 ^ 3 + code.toNat)

/-- A few words of the spec's own examples decode to the commands they stand for. -/
def Obligations.SampleWordsDecode : Prop :=
  decode 0x0100000000000041 = .instr (.enc 0x41) ∧
  decode 0x0206464630373830 = .instr (.parse ⟨6, 0x46, 0x46, 0x30, 0x37, 0x38, 0x30⟩) ∧
  decode 0x0300000000FF0780 = .instr (.valid ⟨0xFF, 0x07, 0x80⟩) ∧
  decode 0x0400000000787788 = .instr (.derive ⟨0x78, 0x77, 0x88⟩) ∧
  decode 0x0500000000000009 = .instr (.lookup true 1) ∧
  decode 0x0606303837373846 = .instr (.access ⟨6, 0x30, 0x38, 0x37, 0x37, 0x38, 0x46⟩) ∧
  decode 0xFFFFFFFFFFFFFFFF = .illegal .reservedOp ∧
  decode 0x0300000001FF0780 = .illegal .zeroFieldSet

/-! ## What each command answers -/

/-- ENC: a value up to 255 is answered with its record, a larger one with `INVALID_FORMAT` (R71, R74 to R82); a
word with a set `zero` bit answers `ILLEGAL_CMD`. -/
def Obligations.EncAnswersTheRecord : Prop :=
  (∀ (val : BitVec 16) (s : State), val.toNat ≤ 255 →
    ∃ r, exec (.enc val) s = .next (s.respond (.ok (.enc r))) ∧ EncodesByte val.toNat r) ∧
  (∀ (val : BitVec 16) (s : State), 255 < val.toNat →
    exec (.enc val) s = .next (s.respond (.error .invalidFormat))) ∧
  RejectsSetZeroField 1 16 40

/-- PARSE: six hexadecimal characters are answered with the triple they spell, every other operand with
`INVALID_FORMAT` (R97 to R99). -/
def Obligations.ParseAnswersTheTriple : Prop :=
  (∀ (str : StrOperand) (s : State), SixHexDigits str →
    ∃ t, SpellsTriple str t ∧ exec (.parse str) s = .next (s.respond (.ok (.triple t)))) ∧
  (∀ (str : StrOperand) (s : State), ¬ SixHexDigits str →
    exec (.parse str) s = .next (s.respond (.error .invalidFormat)))

/-- VALID: the first of C1, C2, C3 to fail is reported, `OK` without payload where none fails (R100, R101, R106). -/
def Obligations.ValidReportsTheFirstFailingCheck : Prop :=
  (∀ (t : Triple) (s : State),
    exec (.valid t) s = .next (s.respond
      (if C1 t then
        if C2 t then
          if C3 t then .ok .empty else .error .mismatch78
        else .error .mismatch68
      else .error .mismatch67))) ∧
  RejectsSetZeroField 3 24 32

/-- DERIVE: the four codes, for every triple, whether it would pass VALID or not (R110 to R112). -/
def Obligations.DeriveAnswersTheFourCodes : Prop :=
  (∀ (t : Triple) (s : State),
    ∃ cs, DerivesCodes t cs ∧ exec (.derive t) s = .next (s.respond (.ok (.codes cs)))) ∧
  RejectsSetZeroField 4 24 32

/-- LOOKUP: row number `code` of the table `trl` selects, for all 16 operands (R118, R119). -/
def Obligations.LookupAnswersTheRow : Prop :=
  (∀ (code : AccessCode) (s : State),
    ∃ row, TrailerRowIs s.rom code row ∧ exec (.lookup true code) s = .next (s.respond (.ok (.trow row)))) ∧
  (∀ (code : AccessCode) (s : State),
    ∃ row, DataRowIs s.rom code row ∧ exec (.lookup false code) s = .next (s.respond (.ok (.drow row)))) ∧
  RejectsSetZeroField 5 4 52

/-- ACCESS: parse, then the three checks as gates, then codes and rows; no payload on any other status (R126, R128). -/
def Obligations.AccessRunsTheGatedPipeline : Prop :=
  (∀ (str : StrOperand) (s : State), ¬ SixHexDigits str →
    exec (.access str) s = .next (s.respond (.error .invalidFormat))) ∧
  (∀ (str : StrOperand) (t : Triple) (s : State), str.len.toNat = 6 → SpellsTriple str t →
    (¬ C1 t → exec (.access str) s = .next (s.respond (.error .mismatch67))) ∧
    (C1 t → ¬ C2 t → exec (.access str) s = .next (s.respond (.error .mismatch68))) ∧
    (C1 t → C2 t → ¬ C3 t → exec (.access str) s = .next (s.respond (.error .mismatch78))) ∧
    (C1 t → C2 t → C3 t →
      ∃ a, RecordsAccess s.rom t a ∧ exec (.access str) s = .next (s.respond (.ok (.access a)))))

/-- ACCESS answers what the host collects from the primitive commands, for every string operand (spec's derived rule on
the agreement of ACCESS and the primitives). -/
def Obligations.AccessEqualsThePrimitives : Prop :=
  ∀ (str : StrOperand) (s : State),
    ∃ r, exec (.access str) s = .next (s.respond r) ∧ pipeline str s = some r

/-- Which payload fields a response has, row by row of R20's table; VALID has none. -/
def Obligations.PayloadFieldsPresentAsTabled : Prop :=
  ∀ (i : Instr) (s : State),
    ∃ r, exec i s = .next (s.respond r) ∧
      (r.encoding.isSome ↔ (∃ val, i = .enc val) ∧ r.status = .ok) ∧
      (r.triple.isSome ↔ (∃ str, i = .parse str ∨ i = .access str) ∧ r.status = .ok) ∧
      (r.codes.isSome ↔ (∃ t, i = .derive t) ∨ ((∃ str, i = .access str) ∧ r.status = .ok)) ∧
      (r.trow.isSome ↔ ∃ code, i = .lookup true code) ∧
      (r.drow.isSome ↔ ∃ code, i = .lookup false code) ∧
      (r.rows.isSome ↔ (∃ str, i = .access str) ∧ r.status = .ok) ∧
      (r.row3.isSome ↔ (∃ str, i = .access str) ∧ r.status = .ok) ∧
      ((∃ t, i = .valid t) → r.payload = none ∨ r.payload = some .empty) ∧
      (r.status ≠ .ok → r.payload = none)

/-- Which command answers which status, each of them for some operand, under which 4-bit code; `ILLEGAL_CMD` is the
decoder's and answers exactly the words that are no command (R21). -/
def Obligations.StatusesProducedAsTabled : Prop :=
  (∀ (i : Instr) (s : State), ∃ r, exec i s = .next (s.respond r) ∧ MayAnswer i r.status ∧
    (r.status.code.toNat ≤ 4)) ∧
  (∀ (i : Instr) (st : Status), MayAnswer i st →
    ∃ j : Instr, opOf (encode j) = opOf (encode i) ∧
      ∀ s : State, ∃ r, exec j s = .next (s.respond r) ∧ r.status = st) ∧
  (∀ (s : State) (w : Word) (rest : List HostAction), s.stream = .command w :: rest →
    ∃ r, step s = .next ({ s with stream := rest }.respond r) ∧
      (r.status.code.toNat = 15 ↔ ¬ ∃ i, decode w = .instr i)) ∧
  [Status.ok, .invalidFormat, .mismatch67, .mismatch68, .mismatch78, .illegalCmd].map (fun st => st.code.toNat)
    = [0, 1, 2, 3, 4, 15]

/-- What a command leaves unchanged: the instance, the tables, the host's stream and every earlier response; it adds
exactly one response. -/
def Obligations.CommandFrame : Prop :=
  ∀ (i : Instr) (s u : State), exec i s = .next u →
    u.bnc = s.bnc ∧ u.rom = s.rom ∧ u.stream = s.stream ∧ ∃ r, u.responses = s.responses ++ [r]

/-! ## Properties of the numeric codec -/

/-- The digit texts parse back to the byte in base 2, 16 and 8, and the inverted binary text is the complement of the
binary text character by character (the properties the source states for all bytes). -/
def Obligations.DigitTextsParseBack : Prop :=
  ∀ (val : BitVec 16) (s : State), val.toNat ≤ 255 →
    ∃ r, exec (.enc val) s = .next (s.respond (.ok (.enc r))) ∧
      (∃ h l, hexval (r.hex.get 0) = some h ∧ hexval (r.hex.get 1) = some l ∧
        16 * h.toNat + l.toNat = val.toNat) ∧
      64 * ((r.octal.get 0).toNat - 0x30) + 8 * ((r.octal.get 1).toNat - 0x30) + ((r.octal.get 2).toNat - 0x30)
        = val.toNat ∧
      (List.finRange 8).foldl (fun n i => 2 * n + if r.binary.get i = 0x31 then 1 else 0) 0 = val.toNat ∧
      ∀ i : Fin 8, r.binaryInverted.get i = 0x31 ↔ r.binary.get i = 0x30

/-- ENC of the complement exchanges `value` with `inverted` and each text with its inverted text; its `char` is the
value mapping of the complement, not the first record's `char_inverted`. -/
def Obligations.ComplementExchangesTheTexts : Prop :=
  ∀ (val : BitVec 16) (s : State), val.toNat ≤ 255 →
    ∃ r q, exec (.enc val) s = .next (s.respond (.ok (.enc r))) ∧
      exec (.enc (255 - val)) s = .next (s.respond (.ok (.enc q))) ∧
      q.value = r.inverted ∧ q.inverted = r.value ∧
      q.binary = r.binaryInverted ∧ q.binaryInverted = r.binary ∧
      q.hex = r.hexInverted ∧ q.hexInverted = r.hex ∧
      q.octal = r.octalInverted ∧ q.octalInverted = r.octal ∧
      q.char.kind = kindOfValue (255 - val.toNat)

/-- The bytes on which the two character mappings differ are exactly those of R80's table: the `char` of a byte against
the `char_inverted` of its complement's record, which is the inverted mapping of the same byte. -/
def Obligations.MappingsDifferExactlyAsTabled : Prop :=
  ∀ (val : BitVec 16) (s : State), val.toNat ≤ 255 →
    ∃ r q, exec (.enc val) s = .next (s.respond (.ok (.enc r))) ∧
      exec (.enc (255 - val)) s = .next (s.respond (.ok (.enc q))) ∧
      r.char.cp = q.charInverted.cp ∧
      (r.char.kind ≠ q.charInverted.kind ↔
        val.toNat = 32 ∨ val.toNat = 127 ∨ (128 ≤ val.toNat ∧ val.toNat ≤ 135) ∨ val.toNat = 160 ∨ val.toNat = 173)

/-- The texts the two display characters of a record stand for, by value: one character or a placeholder (R22, R78, R79),
the placeholders spelled in ASCII codes (log 11). -/
def Obligations.DisplayTextsOfTheRecord : Prop :=
  ∀ (val : BitVec 16) (s : State), val.toNat ≤ 255 →
    ∃ r, exec (.enc val) s = .next (s.respond (.ok (.enc r))) ∧
      r.char.text =
        (if val.toNat = 32 then [0x73, 0x70, 0x61, 0x63, 0x65]
        else if val.toNat = 127 then [0x64, 0x65, 0x6C, 0x65, 0x74, 0x65]
        else if val.toNat = 173 then [0x73, 0x2E, 0x68, 0x79, 0x70, 0x68, 0x65, 0x6E]
        else if val.toNat ≤ 31 ∨ (128 ≤ val.toNat ∧ val.toNat ≤ 160) then [0x78, 0x78, 0x78]
        else [BitVec.ofNat 8 val.toNat]) ∧
      r.charInverted.text =
        (if (96 ≤ val.toNat ∧ val.toNat ≤ 119) ∨ 224 ≤ val.toNat then [0x78, 0x78, 0x78]
        else [BitVec.ofNat 8 (255 - val.toNat)])

/-- Which bytes have the placeholder `XXX` as `char` and as `char_inverted`; no byte has both. -/
def Obligations.PlaceholderBytes : Prop :=
  ∀ (val : BitVec 16) (s : State), val.toNat ≤ 255 →
    ∃ r, exec (.enc val) s = .next (s.respond (.ok (.enc r))) ∧
      (r.char.kind = .xxx ↔ val.toNat ≤ 31 ∨ (128 ≤ val.toNat ∧ val.toNat ≤ 160)) ∧
      (r.charInverted.kind = .xxx ↔ (96 ≤ val.toNat ∧ val.toNat ≤ 119) ∨ 224 ≤ val.toNat) ∧
      ¬ (r.char.kind = .xxx ∧ r.charInverted.kind = .xxx)

/-! ## Properties of the access-rights unit -/

/-- PARSE is case-insensitive. -/
def Obligations.ParseIgnoresCase : Prop :=
  ∀ (a b : StrOperand) (s : State), a.len = b.len →
    SameUpToCase a.ch0 b.ch0 → SameUpToCase a.ch1 b.ch1 → SameUpToCase a.ch2 b.ch2 →
    SameUpToCase a.ch3 b.ch3 → SameUpToCase a.ch4 b.ch4 → SameUpToCase a.ch5 b.ch5 →
      ∃ r, exec (.parse a) s = .next (s.respond r) ∧ exec (.parse b) s = .next (s.respond r)

/-- With a declared length other than 6 the slots have no influence on PARSE and ACCESS (R53). -/
def Obligations.SlotsOfAWrongLengthAreIgnored : Prop :=
  ∀ (a b : StrOperand) (s : State), a.len = b.len → a.len.toNat ≠ 6 →
    exec (.parse a) s = exec (.parse b) s ∧ exec (.access a) s = exec (.access b) s

/-- The triples that pass VALID are those built from three free nibbles. -/
def Obligations.WellFormedTriplesAreBuiltFromThreeNibbles : Prop :=
  ∀ (t : Triple) (s : State),
    exec (.valid t) s = .next (s.respond (.ok .empty)) ↔
      ∃ n1 n2 n3 : Nibble, t = ⟨~~~ n2 ++ ~~~ n1, n1 ++ ~~~ n3, n3 ++ n2⟩

/-- Flipping one bit of a triple that passes VALID makes the one relation that reads the bit fail. -/
def Obligations.SingleBitFlipIsReported : Prop :=
  ∀ (t : Triple) (s : State) (j : Nat),
    exec (.valid t) s = .next (s.respond (.ok .empty)) → j < 8 →
      exec (.valid { t with b6 := t.b6 ^^^ BitVec.twoPow 8 j }) s
        = .next (s.respond (.error (if j < 4 then .mismatch67 else .mismatch68))) ∧
      exec (.valid { t with b7 := t.b7 ^^^ BitVec.twoPow 8 j }) s
        = .next (s.respond (.error (if j < 4 then .mismatch78 else .mismatch67))) ∧
      exec (.valid { t with b8 := t.b8 ^^^ BitVec.twoPow 8 j }) s
        = .next (s.respond (.error (if j < 4 then .mismatch68 else .mismatch78)))

/-- DERIVE reads only the high nibble of byte 7 and byte 8. -/
def Obligations.DeriveReadsOnlyTheDirectCopies : Prop :=
  ∀ (t u : Triple) (s : State), t.b7.toNat / 16 = u.b7.toNat / 16 → t.b8 = u.b8 →
    ∃ cs, exec (.derive t) s = .next (s.respond (.ok (.codes cs))) ∧
      exec (.derive u) s = .next (s.respond (.ok (.codes cs)))

/-- For a triple that passes VALID, the codes can equally be read from the inverted copies. -/
def Obligations.InvertedCopiesGiveTheSameCodes : Prop :=
  ∀ (t : Triple) (s : State), exec (.valid t) s = .next (s.respond (.ok .empty)) →
    ∃ cs, exec (.derive t) s = .next (s.respond (.ok (.codes cs))) ∧
      ∀ b : Fin 4, (cs.get b).toNat =
        4 * (1 - t.b6.toNat / 2 ^ b.val % 2) + 2 * (1 - t.b6.toNat / 2 ^ (4 + b.val) % 2)
          + (1 - t.b7.toNat / 2 ^ b.val % 2)

/-- Every four access codes are the codes of exactly one triple that passes VALID. -/
def Obligations.CodesDetermineTheWellFormedTriple : Prop :=
  ∀ (cs : AccessCodes) (s : State),
    ∃ t, (exec (.valid t) s = .next (s.respond (.ok .empty)) ∧
        exec (.derive t) s = .next (s.respond (.ok (.codes cs)))) ∧
      ∀ u, exec (.valid u) s = .next (s.respond (.ok .empty)) →
        exec (.derive u) s = .next (s.respond (.ok (.codes cs))) → u = t

/-- The two golden triples of the source: `FF0780` and `787788`, the rows being those of the default tables (log 2). -/
def Obligations.GoldenTriples : Prop :=
  ∀ s : State, s.rom = defaultTables →
    exec (.valid ⟨0xFF, 0x07, 0x80⟩) s = .next (s.respond (.ok .empty)) ∧
    exec (.derive ⟨0xFF, 0x07, 0x80⟩) s = .next (s.respond (.ok (.codes #v[0, 0, 0, 1]))) ∧
    exec (.access ⟨6, 0x37, 0x38, 0x37, 0x37, 0x38, 0x38⟩) s = .next (s.respond (.ok (.access
      ⟨⟨0x78, 0x77, 0x88⟩, #v[4, 4, 4, 3],
        #v[⟨.keyAB, .keyB, .never, .never, 1⟩, ⟨.keyAB, .keyB, .never, .never, 1⟩,
          ⟨.keyAB, .keyB, .never, .never, 1⟩],
        ⟨.never, .keyB, .keyAB, .keyB, .never, .keyB, 0⟩⟩)))

/-- The assembler syntax (R63): what the word of each line decodes to, for every line the syntax admits. -/
def Obligations.AssembledLinesDecodeAsWritten : Prop :=
  (∀ n, n ≤ 65535 → ∃ w val, assemble (.enc n) = some w ∧ decode w = .instr (.enc val) ∧ val.toNat = n) ∧
  (∀ text : List Byte, text.length ≤ 255 →
    ∃ v w str, assemble (.parse text) = some v ∧ decode v = .instr (.parse str) ∧
      assemble (.access text) = some w ∧ decode w = .instr (.access str) ∧ str.len.toNat = text.length ∧
      [str.ch0, str.ch1, str.ch2, str.ch3, str.ch4, str.ch5] = (List.range 6).map fun i => text[i]?.getD 0x00) ∧
  (∀ x y z, x ≤ 255 → y ≤ 255 → z ≤ 255 →
    ∃ v w t, assemble (.valid x y z) = some v ∧ decode v = .instr (.valid t) ∧
      assemble (.derive x y z) = some w ∧ decode w = .instr (.derive t) ∧
      t.b6.toNat = x ∧ t.b7.toNat = y ∧ t.b8.toNat = z) ∧
  (∀ c, c ≤ 7 →
    ∃ v w code, assemble (.lookupT c) = some v ∧ decode v = .instr (.lookup true code) ∧
      assemble (.lookupD c) = some w ∧ decode w = .instr (.lookup false code) ∧ code.toNat = c) ∧
  (∀ w : Word, assemble (.word w) = some w)

/-- A text written in the assembler is accepted by PARSE exactly when it is six hexadecimal characters long. -/
def Obligations.AssembledTextParsesWhenSixHexDigits : Prop :=
  ∀ (text : List Byte) (s : State), text.length ≤ 255 →
    ∃ w r, assemble (.parse text) = some w ∧ step (presentNext w s) = .next (s.respond r) ∧
      (r.status = .ok ↔ text.length = 6 ∧ ∀ c ∈ text, ∃ n, HexDigit c n)

/-! ## The machine as a whole -/

/-- Every step goes on: one host action off the stream, and for a command exactly one response more; a reset adds none
(a step of its own is the model's inference, log 8); with nothing presented nothing changes (the model's choice, log 3).
-/
def Obligations.EveryStepGoesOn : Prop :=
  ∀ s : State, ∃ u, step s = .next u ∧ u.bnc = s.bnc ∧ u.rom = s.rom ∧ u.stream = s.stream.tail ∧
    (s.stream.head? = none → u = s) ∧
    (s.stream.head? = some .reset → u.responses = s.responses) ∧
    (∀ w, s.stream.head? = some (.command w) → ∃ r, u.responses = s.responses ++ [r])

/-- Every step keeps every received response sound. -/
def Obligations.EveryStepKeepsResponsesSound : Prop :=
  ∀ s u : State, Inv s → step s = .next u → Inv u

/-- Right after reset no response has been received, so all are sound. -/
def Obligations.ResponsesSoundAtReset : Prop := Inv State.reset

/-- What reset leaves: no response (R27), the configured tables, which are the default ones in this model (log 2), and
nothing presented (log 3). -/
def Obligations.ResetLeavesNoResponse : Prop :=
  State.reset.responses = [] ∧ State.reset.rom = ⟨defaultTrailer, defaultData⟩ ∧ State.reset.stream = []

/-- One response per command, in command order, each a function of its own word and of the tables alone (R40): the
function is chosen before the state, the earlier responses and the other commands. -/
def Obligations.ResponsesAnswerCommandsInOrder : Prop :=
  ∀ rom : PermTables, ∃ answer : Word → Resp,
    ∀ (s : State) (ws : List Word) (rest : List HostAction),
      s.rom = rom → s.stream = ws.map .command ++ rest →
        runSteps ws.length s = .next { s with stream := rest, responses := s.responses ++ ws.map answer }

/-- A host that resets the instance between commands receives the responses it would receive without resetting it
(70_reset_and_hazards.md section 1). That a reset is an action of the stream with a step of its own is the model's
inference, DEDUCED (log 8). -/
def Obligations.HostResetsChangeNoResponse : Prop :=
  ∀ s : State, ∃ u v,
    runSteps s.stream.length s = .next u ∧
    runSteps (s.stream.filter (· ≠ .reset)).length { s with stream := s.stream.filter (· ≠ .reset) } = .next v ∧
    u = v ∧ u.rom = s.rom

/-- However many steps are run, the tables stay as configured and no received response is lost or changed. -/
def Obligations.RunsKeepTablesAndResponses : Prop :=
  ∀ (n : Nat) (s : State), ∃ u, runSteps n s = .next u ∧ u.rom = s.rom ∧ s.responses <+: u.responses

/-- Any interleaving of the steps of several instances leaves each as the same number of steps on its own does
(20_memory.md section 4, 60_exceptions.md section 5). That instances form a list of states, of which a schedule moves one
at a time, is the model's DESIGN CHOICE (log 6). -/
def Obligations.InstancesDoNotInterfere : Prop :=
  ∀ (y : System) (schedule : List Nat) (k : Nat),
    (System.run y schedule)[k]? = y[k]?.map (runAlone (schedule.count k))
end

