-- ==== Sys2Proof/Laws/Bits.lean ====
section
/-!
SUPPORT. The bit fields of bytes and words as arithmetic on natural numbers: one lemma per field.
-/

namespace Sys2Proof.Machine

theorem field_toNat {n : Nat} (v : BitVec n) (lo width : Nat) :
    (v.extractLsb' lo width).toNat = v.toNat / 2 ^ lo % 2 ^ width := by
  simp [BitVec.extractLsb'_toNat, Nat.shiftRight_eq_div_pow]

theorem hiNibble_toNat (v : Byte) : (hiNibble v).toNat = v.toNat / 16 := by
  have := v.isLt
  simp only [hiNibble, field_toNat]
  omega

theorem loNibble_toNat (v : Byte) : (loNibble v).toNat = v.toNat % 16 := by
  simp only [loNibble, field_toNat, pow_zero, Nat.div_one]
  norm_num

theorem bit_toNat (v : Byte) (i : Nat) : (bit v i).toNat = v.toNat / 2 ^ i % 2 := by
  simp only [bit, field_toNat, pow_one]

theorem opField_toNat (w : Word) : (opField w).toNat = Safety.opOf w := by
  have := w.isLt
  simp only [opField, field_toNat, Safety.opOf]
  omega

theorem opField_eq_iff (w : Word) (k : Nat) (hk : k < 256) :
    opField w = BitVec.ofNat 8 k ↔ Safety.opOf w = k := by
  rw [BitVec.toNat_eq, opField_toNat, BitVec.toNat_ofNat, Nat.mod_eq_of_lt hk]

theorem zero_field_iff {n : Nat} (w : Word) (lo : Nat) :
    w.extractLsb' lo n = 0 ↔ Safety.bitsOf w lo n = 0 := by
  rw [BitVec.toNat_eq, field_toNat]
  simp

theorem zeroV_eq_zero_iff (w : Word) : zeroV w = 0 ↔ Safety.bitsOf w 16 40 = 0 := zero_field_iff w 16

theorem zeroT_eq_zero_iff (w : Word) : zeroT w = 0 ↔ Safety.bitsOf w 24 32 = 0 := zero_field_iff w 24

theorem zeroL_eq_zero_iff (w : Word) : zeroL w = 0 ↔ Safety.bitsOf w 4 52 = 0 := zero_field_iff w 4

/-- Concatenation as arithmetic. -/
theorem concat_toNat {m n : Nat} (a : BitVec m) (b : BitVec n) : (a ++ b).toNat = a.toNat * 2 ^ n + b.toNat := by
  rw [BitVec.toNat_append, Nat.shiftLeft_eq, Nat.mul_comm, ← Nat.two_pow_add_eq_or_of_lt b.isLt]

/-- The checksum relations on natural numbers (41_access_rights.md R100). -/
theorem c1Holds_iff (t : Triple) : c1Holds t = true ↔ Safety.C1 t := by
  simp only [c1Holds, beq_iff_eq, BitVec.toNat_eq, BitVec.toNat_not, hiNibble_toNat, loNibble_toNat, Safety.C1]

theorem c2Holds_iff (t : Triple) : c2Holds t = true ↔ Safety.C2 t := by
  simp only [c2Holds, beq_iff_eq, BitVec.toNat_eq, BitVec.toNat_not, hiNibble_toNat, loNibble_toNat, Safety.C2]

theorem c3Holds_iff (t : Triple) : c3Holds t = true ↔ Safety.C3 t := by
  simp only [c3Holds, beq_iff_eq, BitVec.toNat_eq, BitVec.toNat_not, hiNibble_toNat, loNibble_toNat, Safety.C3]

/-- What the checksum reports (R101). -/
theorem checksum_eq (t : Triple) :
    checksum t =
      if Safety.C1 t then
        if Safety.C2 t then if Safety.C3 t then none else some .mismatch78 else some .mismatch68
      else some .mismatch67 := by
  simp only [checksum, c1Holds_iff, c2Holds_iff, c3Holds_iff]

/-- A code's value (R110). -/
theorem accessCode_toNat (t : Triple) (b : Nat) :
    (accessCode t b).toNat =
      4 * (t.b7.toNat / 2 ^ (4 + b) % 2) + 2 * (t.b8.toNat / 2 ^ b % 2) + t.b8.toNat / 2 ^ (4 + b) % 2 := by
  simp only [accessCode, concat_toNat, bit_toNat]
  omega

end Sys2Proof.Machine
end

