-- ==== Sys2Proof/Laws/Codec.lean ====
section
/-!
SUPPORT. What the numeric codec's functions answer, one lemma per function (40_numeric_codec.md R72 to R79).
-/

namespace Sys2Proof.Machine

open Sys2Proof.Safety

theorem digit2_toNat : ∀ d : BitVec 1, (digit2 d).toNat = 0x30 + d.toNat := by decide

theorem digit8_toNat : ∀ d : BitVec 3, (digit8 d).toNat = 0x30 + d.toNat := by decide

theorem digit16_upper : ∀ d : Nibble, UpperDigit (digit16 d) d.toNat := by
  unfold UpperDigit
  decide

/-- The three digit texts of a byte. -/
theorem texts_of_byte (v : Byte) : DigitTexts v.toNat (bin8 v) (hex2 v) (oct3 v) := by
  have hv := v.isLt
  refine ⟨fun i => ?_, fun i => ?_, fun i => ?_⟩
  · fin_cases i <;> exact (digit2_toNat _).trans (congrArg (0x30 + ·) (bit_toNat v _))
  · fin_cases i
    · have h := digit16_upper (hiNibble v)
      rw [hiNibble_toNat] at h
      have e : v.toNat / 16 ^ 1 % 16 = v.toNat / 16 := by omega
      exact e.symm ▸ h
    · have h := digit16_upper (loNibble v)
      rw [loNibble_toNat] at h
      have e : v.toNat / 16 ^ 0 % 16 = v.toNat % 16 := by omega
      exact e.symm ▸ h
  · fin_cases i
    · refine (digit8_toNat _).trans ?_
      simp only [BitVec.toNat_setWidth, field_toNat]
      show 48 + v.toNat / 2 ^ 6 % 2 ^ 2 % 2 ^ 3 = 48 + v.toNat / 8 ^ 2 % 8
      omega
    · refine (digit8_toNat _).trans ?_
      rw [field_toNat]
      show 48 + v.toNat / 2 ^ 3 % 2 ^ 3 = 48 + v.toNat / 8 ^ 1 % 8
      omega
    · refine (digit8_toNat _).trans ?_
      rw [field_toNat]
      show 48 + v.toNat / 2 ^ 0 % 2 ^ 3 = 48 + v.toNat / 8 ^ 0 % 8
      omega

theorem charmapV_kind : ∀ v : Byte, (charmapV v).kind = kindOfValue v.toNat := by decide

theorem charmapI_kind : ∀ w : Byte, (charmapI w).kind = kindOfInverted w.toNat := by decide

theorem charmapV_cp (v : Byte) : (charmapV v).cp = v := by
  unfold charmapV; split_ifs <;> rfl

theorem charmapI_cp (w : Byte) : (charmapI w).cp = w := by
  unfold charmapI; split_ifs <;> rfl

theorem complement_toNat (v : Byte) : (~~~ v).toNat = 255 - v.toNat := by
  rw [BitVec.toNat_not]

end Sys2Proof.Machine
end

