-- ==== Sys2Proof/Laws/Operands.lean ====
section
/-!
SUPPORT. What the string operand's functions answer: `hexval`, `hexByte`, `parseTriple` (41_access_rights.md R97 to R99).
-/

namespace Sys2Proof.Machine

open Sys2Proof.Safety

theorem hexval_eq_some_iff (c : Byte) (n : Nibble) : hexval c = some n ↔ HexDigit c n.toNat := by
  have hc := c.isLt
  have hn := n.isLt
  unfold hexval HexDigit
  simp only [BitVec.le_def, BitVec.ofNat_eq_ofNat, BitVec.toNat_ofNat]
  split
  · simp only [Option.some.injEq, BitVec.toNat_eq, BitVec.toNat_setWidth, BitVec.toNat_sub, BitVec.toNat_ofNat]
    omega
  · split
    · simp only [Option.some.injEq, BitVec.toNat_eq, BitVec.toNat_setWidth, BitVec.toNat_sub, BitVec.toNat_add,
        BitVec.toNat_ofNat]
      omega
    · split
      · simp only [Option.some.injEq, BitVec.toNat_eq, BitVec.toNat_setWidth, BitVec.toNat_sub, BitVec.toNat_add,
          BitVec.toNat_ofNat]
        omega
      · simp only [reduceCtorEq, false_iff]
        omega

theorem hexDigit_lt {c : Byte} {n : Nat} (h : HexDigit c n) : n < 16 := by
  unfold HexDigit at h; omega

theorem hexDigit_unique {c : Byte} {m n : Nat} (hm : HexDigit c m) (hn : HexDigit c n) : m = n := by
  unfold HexDigit at hm hn; omega

theorem hexval_of_hexDigit {c : Byte} {n : Nat} (h : HexDigit c n) : hexval c = some (BitVec.ofNat 4 n) := by
  rw [hexval_eq_some_iff, BitVec.toNat_ofNat, Nat.mod_eq_of_lt (hexDigit_lt h)]
  exact h

theorem hexval_eq_none_iff (c : Byte) : hexval c = none ↔ ¬ ∃ n, HexDigit c n := by
  constructor
  · rintro h ⟨n, hn⟩
    simp [hexval_of_hexDigit hn] at h
  · intro h
    match hv : hexval c with
    | none => rfl
    | some n => exact absurd ⟨_, (hexval_eq_some_iff c n).1 hv⟩ h

/-- The byte of a pair of hexadecimal characters (20_memory.md R35). -/
theorem hexByte_eq_some_iff (c d : Byte) (v : Byte) :
    hexByte c d = some v ↔ ∃ h l, HexDigit c h ∧ HexDigit d l ∧ v.toNat = 16 * h + l := by
  constructor
  · intro e
    unfold hexByte at e
    split at e
    · rename_i h l hh hl
      refine ⟨_, _, (hexval_eq_some_iff c h).1 hh, (hexval_eq_some_iff d l).1 hl, ?_⟩
      cases e
      rw [concat_toNat]; omega
    · cases e
  · rintro ⟨h, l, hh, hl, e⟩
    have h1 := hexDigit_lt hh
    have h2 := hexDigit_lt hl
    simp only [hexByte, hexval_of_hexDigit hh, hexval_of_hexDigit hl, Option.some.injEq, BitVec.toNat_eq,
      concat_toNat, BitVec.toNat_ofNat]
    omega

/-- The triple of a string operand (R98, R99). -/
theorem parseTriple_eq_some_iff (str : StrOperand) (t : Triple) :
    parseTriple str = some t ↔ str.len.toNat = 6 ∧ SpellsTriple str t := by
  have hlen : str.len = 6 ↔ str.len.toNat = 6 := by rw [BitVec.toNat_eq]; rfl
  constructor
  · intro h
    unfold parseTriple at h
    split at h
    · rename_i h6
      split at h
      · rename_i b6 b7 b8 e6 e7 e8
        cases h
        obtain ⟨h0, h1, d0, d1, q6⟩ := (hexByte_eq_some_iff _ _ _).1 e6
        obtain ⟨h2, h3, d2, d3, q7⟩ := (hexByte_eq_some_iff _ _ _).1 e7
        obtain ⟨h4, h5, d4, d5, q8⟩ := (hexByte_eq_some_iff _ _ _).1 e8
        exact ⟨hlen.1 h6, h0, h1, h2, h3, h4, h5, d0, d1, d2, d3, d4, d5, q6, q7, q8⟩
      · cases h
    · cases h
  · rintro ⟨h6, h0, h1, h2, h3, h4, h5, d0, d1, d2, d3, d4, d5, q6, q7, q8⟩
    rw [parseTriple, if_pos (hlen.2 h6), (hexByte_eq_some_iff _ _ _).2 ⟨h0, h1, d0, d1, q6⟩,
      (hexByte_eq_some_iff _ _ _).2 ⟨h2, h3, d2, d3, q7⟩, (hexByte_eq_some_iff _ _ _).2 ⟨h4, h5, d4, d5, q8⟩]

/-- Six hexadecimal characters always spell a triple. -/
theorem sixHexDigits_iff_parseTriple (str : StrOperand) : SixHexDigits str ↔ ∃ t, parseTriple str = some t := by
  simp only [parseTriple_eq_some_iff, SixHexDigits, List.forall_mem_cons, List.not_mem_nil, false_imp_iff,
    implies_true, and_true]
  constructor
  · rintro ⟨h6, ⟨h0, d0⟩, ⟨h1, d1⟩, ⟨h2, d2⟩, ⟨h3, d3⟩, ⟨h4, d4⟩, ⟨h5, d5⟩⟩
    have b := fun {c : Byte} {n : Nat} (h : HexDigit c n) => hexDigit_lt h
    refine ⟨⟨BitVec.ofNat 8 (16 * h0 + h1), BitVec.ofNat 8 (16 * h2 + h3), BitVec.ofNat 8 (16 * h4 + h5)⟩,
      h6, h0, h1, h2, h3, h4, h5, d0, d1, d2, d3, d4, d5, ?_, ?_, ?_⟩ <;>
      simp only [BitVec.toNat_ofNat] <;>
      have := b d0 <;> have := b d1 <;> have := b d2 <;> have := b d3 <;> have := b d4 <;> have := b d5 <;> omega
  · rintro ⟨t, h6, h0, h1, h2, h3, h4, h5, d0, d1, d2, d3, d4, d5, -⟩
    exact ⟨h6, ⟨h0, d0⟩, ⟨h1, d1⟩, ⟨h2, d2⟩, ⟨h3, d3⟩, ⟨h4, d4⟩, ⟨h5, d5⟩⟩

end Sys2Proof.Machine
end

