-- ==== Sys2Proof/Laws/PerInstr.lean ====
section
/-!
SUPPORT. The family `OpcodeRow`: the encoding of a command agrees with the command's own row of spec/opcode_table.json,
`match` under `mask` (30_encoding.md R48).
-/

namespace Sys2Proof.Laws.OpcodeRow

/-- The command's encoding belongs to the command's own row. -/
def Statement (i : Instr) : Prop := (opcodeRow i).accepts (encode i) = true

/-- A word made of an opcode, a field and a field, under a mask cut at the same places. -/
theorem masked_fields {a b : Nat} (op m : Byte) (x y : BitVec a) (z w : BitVec b) :
    (op ++ x ++ z) &&& (m ++ y ++ w) = (op &&& m) ++ (x &&& y) ++ (z &&& w) := by
  rw [BitVec.and_append, BitVec.and_append]

theorem enc (val : BitVec 16) : Statement (.enc val) := by
  have h := masked_fields 0x01 0xFF 0#40 (BitVec.allOnes 40) val 0#16
  rw [BitVec.and_zero] at h
  exact beq_iff_eq.2 h

theorem parse (str : StrOperand) : Statement (.parse str) := by
  have h := masked_fields 0x02 0xFF str.len 0#8 (encodeChars str) 0#48
  rw [BitVec.and_zero, BitVec.and_zero] at h
  exact beq_iff_eq.2 h

theorem valid (t : Triple) : Statement (.valid t) := by
  have h := masked_fields 0x03 0xFF 0#32 (BitVec.allOnes 32) (encodeTriple t) 0#24
  rw [BitVec.and_zero] at h
  exact beq_iff_eq.2 h

theorem derive (t : Triple) : Statement (.derive t) := by
  have h := masked_fields 0x04 0xFF 0#32 (BitVec.allOnes 32) (encodeTriple t) 0#24
  rw [BitVec.and_zero] at h
  exact beq_iff_eq.2 h

theorem lookup (trl : Bool) (code : AccessCode) : Statement (.lookup trl code) := by
  revert trl code
  unfold Statement
  decide

theorem access (str : StrOperand) : Statement (.access str) := by
  have h := masked_fields 0x06 0xFF str.len 0#8 (encodeChars str) 0#48
  rw [BitVec.and_zero, BitVec.and_zero] at h
  exact beq_iff_eq.2 h

end Sys2Proof.Laws.OpcodeRow
end

