-- ==== Sys2Proof/Laws/State.lean ====
section
/-!
SUPPORT. One lemma per field per update of `State`, so that no proof unfolds a record update.
-/

namespace Sys2Proof.Machine

@[simp] theorem respond_bnc (s : State) (r : Resp) : (s.respond r).bnc = s.bnc := rfl

@[simp] theorem respond_rom (s : State) (r : Resp) : (s.respond r).rom = s.rom := rfl

@[simp] theorem respond_stream (s : State) (r : Resp) : (s.respond r).stream = s.stream := rfl

@[simp] theorem respond_responses (s : State) (r : Resp) : (s.respond r).responses = s.responses ++ [r] := rfl

@[simp] theorem presentNext_bnc (w : Word) (s : State) : (presentNext w s).bnc = s.bnc := rfl

@[simp] theorem presentNext_rom (w : Word) (s : State) : (presentNext w s).rom = s.rom := rfl

@[simp] theorem presentNext_stream (w : Word) (s : State) :
    (presentNext w s).stream = .command w :: s.stream := rfl

@[simp] theorem presentNext_responses (w : Word) (s : State) : (presentNext w s).responses = s.responses := rfl

/-- An instance has one state only (R15). -/
theorem bnc_unique (a b : Bnc) : a = b := rfl

@[ext] theorem state_ext {s u : State} (hr : s.rom = u.rom) (hs : s.stream = u.stream)
    (ha : s.responses = u.responses) : s = u := by
  cases s; cases u; simp_all

end Sys2Proof.Machine
end

