-- ==== Sys2Proof/Laws/Step.lean ====
section
/-!
SUPPORT. What a command and a step can do, said once: proofs about runs cite these and do not unfold `exec` or `step`.
-/

namespace Sys2Proof.Machine

/-- The response of a command, as a function of the tables and the command alone (20_memory.md R40). -/
def respOf (rom : PermTables) : Instr → Resp
  | .enc val => encResp val
  | .parse str => parseResp str
  | .valid t => validResp t
  | .derive t => .ok (.codes (accessCodes t))
  | .lookup trl code => lookupResp rom trl code
  | .access str => accessResp rom str

/-- The response of a word, an illegal one included. -/
def respOfWord (rom : PermTables) (w : Word) : Resp :=
  match decode w with
  | .instr i => respOf rom i
  | .illegal _ => .error .illegalCmd

theorem exec_eq (i : Instr) (s : State) : exec i s = .next (s.respond (respOf s.rom i)) := by
  cases i <;> rfl

theorem executeWord_eq (w : Word) (s : State) : executeWord w s = .next (s.respond (respOfWord s.rom w)) := by
  unfold executeWord respOfWord
  cases decode w
  · exact exec_eq _ _
  · rfl

theorem step_idle {s : State} (h : s.stream = []) : step s = .next s := by
  simp only [step, h, idle]

theorem step_reset {s : State} {rest : List HostAction} (h : s.stream = .reset :: rest) :
    step s = .next { s with stream := rest } := by
  simp only [step, h, performAction, resetInstance]

theorem step_command {s : State} {w : Word} {rest : List HostAction} (h : s.stream = .command w :: rest) :
    step s = .next ({ s with stream := rest }.respond (respOfWord s.rom w)) := by
  simp only [step, h, performAction, executeWord_eq]

/-- Everything a step can do. -/
theorem step_cases {s u : State} (h : step s = .next u) :
    (s.stream = [] ∧ u = s) ∨
    (∃ rest, s.stream = .reset :: rest ∧ u = { s with stream := rest }) ∨
    (∃ w rest, s.stream = .command w :: rest ∧ u = { s with stream := rest }.respond (respOfWord s.rom w)) := by
  match hs : s.stream with
  | [] => rw [step_idle hs] at h; cases h; exact .inl ⟨rfl, rfl⟩
  | .reset :: rest => rw [step_reset hs] at h; cases h; exact .inr (.inl ⟨rest, rfl, rfl⟩)
  | .command w :: rest => rw [step_command hs] at h; cases h; exact .inr (.inr ⟨w, rest, rfl, rfl⟩)

end Sys2Proof.Machine
end

