-- ==== Sys2Proof/Laws/Run.lean ====
section
/-!
SUPPORT. Runs of several steps, one equation per form of the next host action.
-/

namespace Sys2Proof.Machine

open Sys2Proof.Safety

@[simp] theorem runSteps_zero (s : State) : runSteps 0 s = .next s := rfl

theorem runSteps_idle {s : State} (k : Nat) (h : s.stream = []) : runSteps (k + 1) s = runSteps k s := by
  rw [runSteps, step_idle h]

theorem runSteps_reset {s : State} {rest : List HostAction} (k : Nat) (h : s.stream = .reset :: rest) :
    runSteps (k + 1) s = runSteps k { s with stream := rest } := by
  rw [runSteps, step_reset h]

theorem runSteps_command {s : State} {w : Word} {rest : List HostAction} (k : Nat)
    (h : s.stream = .command w :: rest) :
    runSteps (k + 1) s = runSteps k ({ s with stream := rest }.respond (respOfWord s.rom w)) := by
  rw [runSteps, step_command h]

end Sys2Proof.Machine
end

