-- ==== Sys2Proof/Tests/Slice0.lean ====
section
/-!
SUPPORT. The model's own tests. Every expected value is read off a table of spec/95_test_vectors.md or a corner case of a
rule, named beside the test; and for each statement with hypotheses a witness that meets them together.
-/

namespace Sys2Proof.Tests

open Sys2Proof.Machine Sys2Proof.Safety

/-- The response to one word presented right after reset. -/
def answerTo (w : Word) : Option Resp :=
  match step (State.reset.withFetchWord 64 w.toNat) with
  | .next u => u.responses.getLast?
  | .fault _ => none
  | .refused _ => none

def statusOf (w : Word) : Option Status := (answerTo w).map Resp.status

/-! ## Legal words, one ill-formed word for each check (95_test_vectors.md section 3.7) -/

theorem test_illformed_reserved_op :
    legalWord 0x0000000000000000 = false ∧ legalWord 0x0700000000000000 = false ∧
      legalWord 0xFFFFFFFFFFFFFFFF = false := by decide

theorem test_illformed_zero_field :
    legalWord 0x0100000000010041 = false ∧ legalWord 0x0300000001FF0780 = false ∧
      legalWord 0x0400010000FF0780 = false ∧ legalWord 0x0500000000000019 = false := by decide

theorem test_wellformed_words :
    legalWord 0x0100000000000041 = true ∧ legalWord 0x0500000000000009 = true ∧
      legalWord 0x0206464630373830 = true := by decide

theorem test_illformed_numbers :
    (AsmLine.enc 65536).wellFormed = false ∧ (AsmLine.valid 0 256 0).wellFormed = false ∧
      (AsmLine.derive 0 0 256).wellFormed = false ∧ (AsmLine.lookupT 8).wellFormed = false ∧
      (AsmLine.lookupD 8).wellFormed = false := by decide

theorem parse_line_check (text : List Byte) : (AsmLine.parse text).wellFormed = decide (text.length ≤ 255) := rfl

theorem access_line_check (text : List Byte) : (AsmLine.access text).wellFormed = decide (text.length ≤ 255) := rfl

theorem test_illformed_texts :
    (AsmLine.parse (List.replicate 256 0x30)).wellFormed = false ∧
      (AsmLine.access (List.replicate 256 0x30)).wellFormed = false := by
  rw [parse_line_check, access_line_check, List.length_replicate]
  decide

/-! ## Decoding: words written out from the field tables of R50 to R56 -/

theorem test_decode_enc : decode 0x010000000000FFFF = .instr (.enc 65535) := by decide

/-- `PARSE "Ff07aB"` (section 3.2): six different slots. -/
theorem test_decode_parse :
    decode 0x0206466630376142 = .instr (.parse ⟨6, 0x46, 0x66, 0x30, 0x37, 0x61, 0x42⟩) := by decide

theorem test_decode_valid : decode 0x0300000000787788 = .instr (.valid ⟨0x78, 0x77, 0x88⟩) := by decide

theorem test_decode_derive : decode 0x0400000000000780 = .instr (.derive ⟨0x00, 0x07, 0x80⟩) := by decide

theorem test_decode_lookup :
    decode 0x050000000000000B = .instr (.lookup true 3) ∧ decode 0x0500000000000006 = .instr (.lookup false 6) := by
  decide

theorem test_decode_access :
    decode 0x06C8464630373931 = .instr (.access ⟨200, 0x46, 0x46, 0x30, 0x37, 0x39, 0x31⟩) := by decide

theorem test_decode_illegal :
    decode 0x8000000000000041 = .illegal .reservedOp ∧ decode 0x0180000000000041 = .illegal .zeroFieldSet := by decide

theorem test_decodeTableWord :
    decodeTableWord 64 0x0500000000000000 = some (.lookup false 0) ∧ decodeTableWord 64 0 = none := by decide

/-- The words of section 3 that the assembler lines of R63 stand for. -/
theorem test_assemble :
    assemble (.parse [0x46, 0x46, 0x30, 0x37, 0x38]) = some 0x0205464630373800 ∧
      assemble (.access [0x46, 0x46, 0x30, 0x37, 0x38, 0x30, 0x30]) = some 0x0607464630373830 ∧
      assemble (.valid 0xFF 0x07 0x90) = some 0x0300000000FF0790 ∧
      assemble (.lookupT 1) = some 0x0500000000000009 ∧ assemble (.enc 256) = some 0x0100000000000100 := by decide

/-! ## ENC (section 2) -/

/-- `ENC 82`: the complement 173 is a literal, not the soft hyphen. -/
theorem test_enc_82 :
    ((answerTo 0x0100000000000052).bind Resp.encoding).map (fun r => (r.hexInverted, r.octalInverted, r.charInverted))
      = some (#v[0x41, 0x44], #v[0x32, 0x35, 0x35], ⟨.literal, 173⟩) := by decide

/-- `ENC 256`: the low byte is 0 but the answer is `INVALID_FORMAT`; `ENC 32`, `ENC 127`, `ENC 160` of section 1. -/
theorem test_enc_bounds :
    statusOf 0x0100000000000100 = some .invalidFormat ∧
      ((answerTo 0x0100000000000020).bind Resp.encoding).map (·.char.kind) = some .space ∧
      ((answerTo 0x010000000000007F).bind Resp.encoding).map (·.char.kind) = some .delete ∧
      ((answerTo 0x01000000000000A0).bind Resp.encoding).map (·.char.kind) = some .xxx := by decide

/-! ## PARSE (section 3.2) -/

theorem test_parse_mixed_case : (answerTo 0x0206466630376142).bind Resp.triple = some ⟨0xFF, 0x07, 0xAB⟩ := by decide

/-- Length 5 with six good slots, and a colon, the code after 9. -/
theorem test_parse_rejects :
    statusOf 0x0205464630373830 = some .invalidFormat ∧ statusOf 0x020646463037383A = some .invalidFormat := by decide

/-! ## VALID (section 3.3) -/

theorem test_valid_passes :
    answerTo 0x0300000000FF0780 = some (.ok .empty) ∧ answerTo 0x0300000000FF0F00 = some (.ok .empty) := by decide

/-- All three fail; C2 and C3 fail; only C3 fails. -/
theorem test_valid_first_failure :
    statusOf 0x0300000000FE0791 = some .mismatch67 ∧ statusOf 0x0300000000FF0791 = some .mismatch68 ∧
      statusOf 0x0300000000FF0790 = some .mismatch78 := by decide

/-! ## DERIVE (section 3.4) -/

theorem test_derive_well_formed : (answerTo 0x040000000008778F).bind Resp.codes = some #v[6, 6, 6, 3] := by decide

/-- Only `b7[7]`: C1 of block 3; only `b8[3]`: C2 of block 3; only `b8[4]`: C3 of block 0. -/
theorem test_derive_single_bits :
    (answerTo 0x0400000000008000).bind Resp.codes = some #v[0, 0, 0, 4] ∧
      (answerTo 0x0400000000000008).bind Resp.codes = some #v[0, 0, 0, 2] ∧
      (answerTo 0x0400000000000010).bind Resp.codes = some #v[1, 0, 0, 0] := by decide

/-! ## LOOKUP (section 3.5, default tables) -/

theorem test_lookup_trailer :
    (answerTo 0x050000000000000B).bind Resp.trow
      = some ⟨.never, .keyB, .keyAB, .keyB, .never, .keyB, 0⟩ := by decide

theorem test_lookup_data :
    (answerTo 0x0500000000000006).bind Resp.drow = some ⟨.keyAB, .keyB, .keyB, .keyAB, 2⟩ := by decide

/-! ## ACCESS (section 3.6, default tables) -/

theorem test_access_rows :
    ((answerTo 0x0606303837373846).bind Resp.codes = some #v[6, 6, 6, 3]) ∧
      ((answerTo 0x0606303837373846).bind Resp.row3).map (·.readDataBlock) = some .keyAB := by decide

theorem test_access_gates :
    answerTo 0x0606464630373930 = some (.error .mismatch78) ∧ statusOf 0x0607464630373830 = some .invalidFormat := by
  decide

/-! ## The machine around the commands -/

/-- Words of section 3.7: the zero field wins over `val` > 255. -/
theorem test_illegal_words :
    answerTo 0x0100000000010141 = some (.error .illegalCmd) ∧ answerTo 0xFFFFFFFFFFFFFFFF = some (.error .illegalCmd) :=
  by decide

/-- The placeholder texts of R22 and the codes of R21. -/
theorem test_texts_and_codes :
    (CharDisplay.mk .shyphen 173).text = [0x73, 0x2E, 0x68, 0x79, 0x70, 0x68, 0x65, 0x6E] ∧
      (CharDisplay.mk .literal 33).text = [33] ∧ Status.illegalCmd.code = 15 ∧ permCode .keyAB = 3 := by decide

theorem test_start_has_one_instance : System.start = [State.reset] := by decide

/-! ## Witnesses: for each statement with hypotheses, a state and operands that meet them together -/

/-- A state whose host presents `w` and then resets. -/
def presenting (w : Word) : State := { State.reset with stream := [.command w, .reset] }

theorem witness_FetchedCommandRunsItsInstruction :
    (presenting 0x0100000000000041).stream = .command 0x0100000000000041 :: [.reset] ∧
      decode 0x0100000000000041 = .instr (.enc 0x41) := by decide

theorem witness_IllegalWords_reserved :
    (presenting 0x0700000000000000).stream = .command 0x0700000000000000 :: [.reset] ∧
      ReservedOp 0x0700000000000000 ∧ ReservedOp 0x0000000000000000 := by
  unfold ReservedOp; decide

theorem witness_IllegalWords_zero :
    (presenting 0x0100000000010041).stream = .command 0x0100000000010041 :: [.reset] ∧
      ZeroFieldSet 0x0100000000010041 ∧ ZeroFieldSet 0x0380000000FF0780 ∧ ZeroFieldSet 0x0400000001FF0780 ∧
      ZeroFieldSet 0x0500000000000010 := by
  unfold ZeroFieldSet; decide

theorem witness_StatusIsTheFirstCause :
    (presenting 0x0606464630373931).stream = .command 0x0606464630373931 :: [.reset] := by decide

theorem witness_EncodeOfDecode : decode 0x0500000000000009 = .instr (.lookup true 1) := by decide

/-- The upper end of ENC's range; also the hypothesis of DigitTextsParseBack, ComplementExchangesTheTexts,
MappingsDifferExactlyAsTabled, DisplayTextsOfTheRecord and PlaceholderBytes. -/
theorem witness_Enc_in_range : (255 : BitVec 16).toNat ≤ 255 := by decide

theorem witness_Enc_out_of_range : 255 < (256 : BitVec 16).toNat := by decide

/-- `RejectsSetZeroField` in ENC's, VALID's, DERIVE's and LOOKUP's statements: the lowest and the highest bit of a field. -/
theorem witness_zero_fields :
    ((presenting 0x0100000000010041).stream = .command 0x0100000000010041 :: [.reset] ∧
      opOf 0x0100000000010041 = 1 ∧ bitsOf 0x0100000000010041 16 40 ≠ 0) ∧
    ((presenting 0x0300000001FF0780).stream = .command 0x0300000001FF0780 :: [.reset] ∧
      opOf 0x0300000001FF0780 = 3 ∧ bitsOf 0x0300000001FF0780 24 32 ≠ 0) ∧
    ((presenting 0x0480000000FF0780).stream = .command 0x0480000000FF0780 :: [.reset] ∧
      opOf 0x0480000000FF0780 = 4 ∧ bitsOf 0x0480000000FF0780 24 32 ≠ 0) ∧
    ((presenting 0x0500000000000019).stream = .command 0x0500000000000019 :: [.reset] ∧
      opOf 0x0500000000000019 = 5 ∧ bitsOf 0x0500000000000019 4 52 ≠ 0) := by decide

/-- The operand of `"Ff07aB"`. -/
def sampleText : StrOperand := ⟨6, 0x46, 0x66, 0x30, 0x37, 0x61, 0x42⟩

theorem witness_Parse_accepts : SixHexDigits sampleText :=
  (sixHexDigits_iff_parseTriple _).2 ⟨⟨0xFF, 0x07, 0xAB⟩, by decide⟩

/-- `"FF078"` and `"GG0780"`. -/
theorem witness_Parse_rejects :
    ¬ SixHexDigits ⟨5, 0x46, 0x46, 0x30, 0x37, 0x38, 0x00⟩ ∧
      ¬ SixHexDigits ⟨6, 0x47, 0x47, 0x30, 0x37, 0x38, 0x30⟩ := by
  simp only [sixHexDigits_iff_parseTriple]
  exact ⟨fun ⟨_, h⟩ => absurd h (by rw [show parseTriple _ = none by decide]; simp),
    fun ⟨_, h⟩ => absurd h (by rw [show parseTriple _ = none by decide]; simp)⟩

/-- `SpellsTriple` of a string the parser accepts. -/
theorem spells_of_parse {str : StrOperand} {t : Triple} (h : parseTriple str = some t) :
    str.len.toNat = 6 ∧ SpellsTriple str t := (parseTriple_eq_some_iff str t).1 h

/-- ACCESS with C1 failing: `"FE0780"`. -/
theorem witness_Access_c1_fails :
    (∃ str t, (str.len.toNat = 6 ∧ SpellsTriple str t) ∧ ¬ C1 t) :=
  ⟨⟨6, 0x46, 0x45, 0x30, 0x37, 0x38, 0x30⟩, ⟨0xFE, 0x07, 0x80⟩, spells_of_parse (by decide), by decide⟩

/-- C2 failing after C1: `"FF0781"`. -/
theorem witness_Access_c2_fails :
    (∃ str t, (str.len.toNat = 6 ∧ SpellsTriple str t) ∧ C1 t ∧ ¬ C2 t) :=
  ⟨⟨6, 0x46, 0x46, 0x30, 0x37, 0x38, 0x31⟩, ⟨0xFF, 0x07, 0x81⟩, spells_of_parse (by decide), by decide⟩

/-- C3 failing after C1 and C2: `"FF0790"`. -/
theorem witness_Access_c3_fails :
    (∃ str t, (str.len.toNat = 6 ∧ SpellsTriple str t) ∧ C1 t ∧ C2 t ∧ ¬ C3 t) :=
  ⟨⟨6, 0x46, 0x46, 0x30, 0x37, 0x39, 0x30⟩, ⟨0xFF, 0x07, 0x90⟩, spells_of_parse (by decide), by decide⟩

/-- All three holding: `"FF0780"`. -/
theorem witness_Access_passes :
    (∃ str t, (str.len.toNat = 6 ∧ SpellsTriple str t) ∧ C1 t ∧ C2 t ∧ C3 t) :=
  ⟨⟨6, 0x46, 0x46, 0x30, 0x37, 0x38, 0x30⟩, ⟨0xFF, 0x07, 0x80⟩, spells_of_parse (by decide), by decide⟩

theorem witness_CommandFrame :
    exec (.valid ⟨0xFF, 0x07, 0x80⟩) State.reset = .next (State.reset.respond (.ok .empty)) := rfl

theorem witness_ParseIgnoresCase :
    SameUpToCase 0x46 0x66 ∧ SameUpToCase 0x61 0x41 ∧ SameUpToCase 0x30 0x30 := by
  unfold SameUpToCase; decide

theorem witness_SlotsOfAWrongLengthAreIgnored :
    (⟨5, 0x46, 0x46, 0x30, 0x37, 0x38, 0x30⟩ : StrOperand).len = (⟨5, 0, 0, 0, 0, 0, 0⟩ : StrOperand).len ∧
      (⟨5, 0x46, 0x46, 0x30, 0x37, 0x38, 0x30⟩ : StrOperand).len.toNat ≠ 6 := by decide

/-- For the single bit flips at both ends of both nibbles, and for the inverted copies: the default trailer passes. -/
theorem witness_passing_triple :
    exec (.valid ⟨0xFF, 0x07, 0x80⟩) State.reset = .next (State.reset.respond (.ok .empty)) ∧
      (0 < 8 ∧ 3 < 8 ∧ 4 < 8 ∧ 7 < 8) := ⟨rfl, by decide⟩

theorem witness_DeriveReadsOnlyTheDirectCopies :
    (⟨0xFF, 0x07, 0x80⟩ : Triple).b7.toNat / 16 = (⟨0x00, 0x00, 0x80⟩ : Triple).b7.toNat / 16 ∧
      (⟨0xFF, 0x07, 0x80⟩ : Triple).b8 = (⟨0x00, 0x00, 0x80⟩ : Triple).b8 := by decide

theorem witness_GoldenTriples : State.reset.rom = defaultTables := rfl

/-- The upper ends of the ranges of R63. -/
theorem witness_AssembledLinesDecodeAsWritten :
    65535 ≤ 65535 ∧ (List.replicate 255 (0x30 : Byte)).length ≤ 255 ∧ 255 ≤ 255 ∧ 7 ≤ 7 := by
  rw [List.length_replicate]; decide

theorem witness_AssembledTextParsesWhenSixHexDigits :
    ([0x46, 0x46, 0x30, 0x37, 0x38, 0x30] : List Byte).length ≤ 255 := by decide

theorem witness_StatusesProducedAsTabled :
    MayAnswer (.access sampleText) .mismatch78 ∧ MayAnswer (.enc 0) .invalidFormat ∧ MayAnswer (.lookup true 7) .ok ∧
      (presenting 0x0700000000000000).stream = .command 0x0700000000000000 :: [.reset] :=
  ⟨.inr ⟨_, rfl⟩, .inl ⟨_, rfl⟩, trivial, rfl⟩

theorem witness_EveryStepGoesOn :
    State.reset.stream.head? = none ∧
      ({ State.reset with stream := [.reset] } : State).stream.head? = some .reset ∧
      (presenting 0x0100000000000041).stream.head? = some (.command 0x0100000000000041) := by decide

/-- A state that already holds a sound response and steps. -/
theorem witness_EveryStepKeepsResponsesSound :
    (∀ r ∈ ((presenting 0x0300000000FF0780).respond (.error .invalidFormat)).responses,
        SoundResp defaultTables r) ∧
      ∃ u, step ((presenting 0x0300000000FF0780).respond (.error .invalidFormat)) = .next u := by
  refine ⟨fun r hr => ?_, _, step_command rfl⟩
  cases List.mem_singleton.1 hr
  trivial

theorem witness_ResponsesAnswerCommandsInOrder :
    ({ State.reset with stream := [0x0300000000FF0780, 0x0100000000000041].map .command ++ [.reset] } : State).stream
      = [0x0300000000FF0780, 0x0100000000000041].map .command ++ [.reset] := rfl

end Sys2Proof.Tests
end

/-!
SUPPORT. The answers of the commands, each with the condition it is given under (10_state.md R20, R21), and the two
statements about the response table that follow from them.
-/

namespace Sys2Proof.Machine

open Sys2Proof.Safety

/-! ## What a command can answer -/

/-- Every answer a command can give, with its condition (R82, R99, R106, R112, R119, R128). -/
inductive Answers (rom : PermTables) : Instr → Resp → Prop where
  | encOk {val : BitVec 16} (h : ¬ 255 < val) :
      Answers rom (.enc val) (.ok (.enc (encodeByte (val.extractLsb' 0 8))))
  | encBad {val : BitVec 16} (h : 255 < val) : Answers rom (.enc val) (.error .invalidFormat)
  | parseOk {str : StrOperand} {t : Triple} (h : parseTriple str = some t) :
      Answers rom (.parse str) (.ok (.triple t))
  | parseBad {str : StrOperand} (h : parseTriple str = none) : Answers rom (.parse str) (.error .invalidFormat)
  | validOk {t : Triple} (h : checksum t = none) : Answers rom (.valid t) (.ok .empty)
  | validBad {t : Triple} {e : ErrorStatus} (h : checksum t = some e) : Answers rom (.valid t) (.error e)
  | derive (t : Triple) : Answers rom (.derive t) (.ok (.codes (accessCodes t)))
  | lookupT (code : AccessCode) : Answers rom (.lookup true code) (.ok (.trow (trailerRow rom code)))
  | lookupD (code : AccessCode) : Answers rom (.lookup false code) (.ok (.drow (dataRow rom code)))
  | accessOk {str : StrOperand} {t : Triple} (hp : parseTriple str = some t) (hc : checksum t = none) :
      Answers rom (.access str) (.ok (.access (accessRecord rom t)))
  | accessBad {str : StrOperand} (hp : parseTriple str = none) : Answers rom (.access str) (.error .invalidFormat)
  | accessMismatch {str : StrOperand} {t : Triple} {e : ErrorStatus} (hp : parseTriple str = some t)
      (hc : checksum t = some e) : Answers rom (.access str) (.error e)

theorem answers_enc (rom : PermTables) (val : BitVec 16) : Answers rom (.enc val) (encResp val) := by
  unfold encResp
  split
  case isTrue h => exact .encBad h
  case isFalse h => exact .encOk h

theorem answers_parse (rom : PermTables) (str : StrOperand) : Answers rom (.parse str) (parseResp str) := by
  unfold parseResp
  split
  case h_1 h => exact .parseOk h
  case h_2 h => exact .parseBad h

theorem answers_valid (rom : PermTables) (t : Triple) : Answers rom (.valid t) (validResp t) := by
  unfold validResp
  split
  case h_1 h => exact .validBad h
  case h_2 h => exact .validOk h

theorem answers_access (rom : PermTables) (str : StrOperand) : Answers rom (.access str) (accessResp rom str) := by
  unfold accessResp
  split
  case h_1 hp => exact .accessBad hp
  case h_2 hp =>
    split
    case h_1 hc => exact .accessMismatch hp hc
    case h_2 hc => exact .accessOk hp hc

/-- The response of a command is one of its answers. -/
theorem answers_respOf (rom : PermTables) (i : Instr) : Answers rom i (respOf rom i) :=
  match i with
  | .enc val => answers_enc rom val
  | .parse str => answers_parse rom str
  | .valid t => answers_valid rom t
  | .derive t => .derive t
  | .lookup true code => .lookupT code
  | .lookup false code => .lookupD code
  | .access str => answers_access rom str

/-- The checksum reports a mismatch and nothing else (R101). -/
theorem mismatch_of_checksum {t : Triple} {e : ErrorStatus} (h : checksum t = some e) :
    e = .mismatch67 ∨ e = .mismatch68 ∨ e = .mismatch78 := by
  rw [checksum_eq] at h
  split_ifs at h <;> cases h <;> decide

/-! ## Payload fields -/

theorem status_error_ne_ok (e : ErrorStatus) : (Resp.error e).status ≠ .ok := by
  cases e <;> decide

/-- Settles O16: each answer has one payload form or is an error, and the form is that of its command's row of R20's
table. -/
theorem payloadFieldsPresentAsTabled : Obligations.PayloadFieldsPresentAsTabled := by
  intro i s
  refine ⟨respOf s.rom i, exec_eq i s, ?_⟩
  have h := answers_respOf s.rom i
  generalize respOf s.rom i = r at h ⊢
  cases h with
  | encOk | parseOk | validOk | derive | lookupT | lookupD | accessOk =>
    simp [Resp.status, Resp.payload, Resp.encoding, Resp.triple, Resp.codes, Resp.trow, Resp.drow, Resp.rows, Resp.row3]
  | encBad | parseBad | validBad | accessBad | accessMismatch =>
    simp [status_error_ne_ok, Resp.payload, Resp.encoding, Resp.triple, Resp.codes, Resp.trow, Resp.drow, Resp.rows,
      Resp.row3]

/-! ## Statuses -/

/-- R21's table read by command: the statuses each command answers. -/
def statusesOf : Instr → List Status
  | .enc _ | .parse _ => [.ok, .invalidFormat]
  | .valid _ => [.ok, .mismatch67, .mismatch68, .mismatch78]
  | .derive _ | .lookup _ _ => [.ok]
  | .access _ => [.ok, .invalidFormat, .mismatch67, .mismatch68, .mismatch78]

theorem mayAnswer_iff_mem (i : Instr) (st : Status) : MayAnswer i st ↔ st ∈ statusesOf i := by
  cases i <;> cases st <;> simp [MayAnswer, statusesOf]

theorem code_le_of_mayAnswer {i : Instr} {st : Status} (h : MayAnswer i st) : st.code.toNat ≤ 4 := by
  cases st with
  | illegalCmd => exact h.elim
  | ok | invalidFormat | mismatch67 | mismatch68 | mismatch78 => decide

theorem mayAnswer_mismatch {i : Instr} {e : ErrorStatus} (hi : (∃ t, i = .valid t) ∨ ∃ str, i = .access str)
    (he : e = .mismatch67 ∨ e = .mismatch68 ∨ e = .mismatch78) : MayAnswer i e.status := by
  obtain rfl | rfl | rfl := he <;> exact hi

theorem Answers.mayAnswer {rom : PermTables} {i : Instr} {r : Resp} (h : Answers rom i r) : MayAnswer i r.status := by
  cases h with
  | encOk | parseOk | validOk | derive | lookupT | lookupD | accessOk => exact trivial
  | encBad => exact .inl ⟨_, rfl⟩
  | parseBad => exact .inr ⟨_, .inl rfl⟩
  | accessBad => exact .inr ⟨_, .inr rfl⟩
  | validBad h => exact mayAnswer_mismatch (.inl ⟨_, rfl⟩) (mismatch_of_checksum h)
  | accessMismatch _ h => exact mayAnswer_mismatch (.inr ⟨_, rfl⟩) (mismatch_of_checksum h)

theorem mayAnswer_respOf (rom : PermTables) (i : Instr) : MayAnswer i (respOf rom i).status :=
  (answers_respOf rom i).mayAnswer

/-! ## Every tabled status occurs -/

/-- The `op` of a command (30_encoding.md R48). -/
def opNumber : Instr → Nat
  | .enc _ => 1
  | .parse _ => 2
  | .valid _ => 3
  | .derive _ => 4
  | .lookup _ _ => 5
  | .access _ => 6

theorem concat_div {m n : Nat} (a : BitVec m) (b : BitVec n) : (a ++ b).toNat / 2 ^ n = a.toNat := by
  rw [concat_toNat, Nat.mul_comm, Nat.mul_add_div (Nat.two_pow_pos n), Nat.div_eq_of_lt b.isLt, Nat.add_zero]

/-- The leading byte of three concatenated fields. -/
theorem leading_field {m n : Nat} (op : Byte) (x : BitVec m) (y : BitVec n) :
    (op ++ x ++ y).toNat / 2 ^ (m + n) = op.toNat := by
  rw [Nat.pow_add, Nat.mul_comm, ← Nat.div_div_eq_div_mul, concat_div, concat_div]

theorem opOf_encode (i : Instr) : opOf (encode i) = opNumber i := by
  cases i with
  | enc val => exact leading_field 0x01 0#40 val
  | parse str => exact leading_field 0x02 str.len (encodeChars str)
  | valid t => exact leading_field 0x03 0#32 (encodeTriple t)
  | derive t => exact leading_field 0x04 0#32 (encodeTriple t)
  | lookup trl code => revert trl code; decide
  | access str => exact leading_field 0x06 str.len (encodeChars str)

/-- A triple whose validation reports `st` (95_test_vectors.md section 3.3). -/
def tripleAnswering : Status → Triple
  | .mismatch67 => ⟨0xFE, 0x07, 0x91⟩
  | .mismatch68 => ⟨0xFF, 0x07, 0x91⟩
  | .mismatch78 => ⟨0xFF, 0x07, 0x90⟩
  | _ => ⟨0xFF, 0x07, 0x80⟩

/-- A string operand that ACCESS answers with `st`: the triples of `tripleAnswering`, or the empty text. -/
def textAnswering : Status → StrOperand
  | .invalidFormat => ⟨0, 0, 0, 0, 0, 0, 0⟩
  | .mismatch67 => ⟨6, 0x46, 0x45, 0x30, 0x37, 0x39, 0x31⟩
  | .mismatch68 => ⟨6, 0x46, 0x46, 0x30, 0x37, 0x39, 0x31⟩
  | .mismatch78 => ⟨6, 0x46, 0x46, 0x30, 0x37, 0x39, 0x30⟩
  | _ => ⟨6, 0x46, 0x46, 0x30, 0x37, 0x38, 0x30⟩

/-- The command `i` with an operand for which it answers `st`, where it can answer `st` at all. -/
def commandAnswering (st : Status) : Instr → Instr
  | .enc _ => .enc (if st = .ok then 0 else 256)
  | .parse _ => .parse (textAnswering st)
  | .valid _ => .valid (tripleAnswering st)
  | .derive t => .derive t
  | .lookup trl code => .lookup trl code
  | .access _ => .access (textAnswering st)

theorem opOf_commandAnswering (st : Status) (i : Instr) :
    opOf (encode (commandAnswering st i)) = opOf (encode i) := by
  rw [opOf_encode, opOf_encode]
  cases i <;> rfl

theorem encResp_answering :
    ∀ st ∈ [Status.ok, .invalidFormat], (encResp (if st = .ok then 0 else 256)).status = st := by decide

theorem parseResp_textAnswering :
    ∀ st ∈ [Status.ok, .invalidFormat], (parseResp (textAnswering st)).status = st := by decide

theorem validResp_tripleAnswering :
    ∀ st ∈ [Status.ok, .mismatch67, .mismatch68, .mismatch78], (validResp (tripleAnswering st)).status = st := by
  decide

/-- ACCESS's status on these texts does not depend on the tables. -/
theorem accessResp_textAnswering (rom : PermTables) :
    ∀ st ∈ [Status.ok, .invalidFormat, .mismatch67, .mismatch68, .mismatch78],
      (accessResp rom (textAnswering st)).status = st := by
  simp only [List.forall_mem_cons, List.not_mem_nil, false_imp_iff, implies_true, and_true]
  exact ⟨rfl, rfl, rfl, rfl, rfl⟩

theorem status_commandAnswering (rom : PermTables) {st : Status} {i : Instr} (h : MayAnswer i st) :
    (respOf rom (commandAnswering st i)).status = st := by
  rw [mayAnswer_iff_mem] at h
  cases i with
  | enc => exact encResp_answering st h
  | parse => exact parseResp_textAnswering st h
  | valid => exact validResp_tripleAnswering st h
  | derive =>
    obtain rfl := List.mem_singleton.1 h
    rfl
  | lookup trl =>
    obtain rfl := List.mem_singleton.1 h
    cases trl <;> rfl
  | access => exact accessResp_textAnswering rom st h

/-- Only a word that is no command answers code 15. -/
theorem code_respOfWord (rom : PermTables) (w : Word) :
    (respOfWord rom w).status.code.toNat = 15 ↔ ¬ ∃ i, decode w = .instr i := by
  unfold respOfWord
  cases decode w with
  | instr i =>
    have hle := code_le_of_mayAnswer (mayAnswer_respOf rom i)
    dsimp only
    exact ⟨fun h => by omega, fun h => (h ⟨i, rfl⟩).elim⟩
  | illegal => simp [Resp.status, ErrorStatus.status, Status.code]

/-- Settles O17: a command answers only what the table gives it, `commandAnswering` gives an operand for each such
status, and code 15 is left to the words that are no command. -/
theorem statusesProducedAsTabled : Obligations.StatusesProducedAsTabled := by
  refine ⟨fun i s => ?ofCommand, fun i st h => ?occurs, fun s w rest h => ?ofWord, rfl⟩
  case ofCommand =>
    have hm := mayAnswer_respOf s.rom i
    exact ⟨_, exec_eq i s, hm, code_le_of_mayAnswer hm⟩
  case occurs =>
    exact ⟨commandAnswering st i, opOf_commandAnswering st i,
      fun s => ⟨_, exec_eq _ s, status_commandAnswering s.rom h⟩⟩
  case ofWord =>
    exact ⟨_, step_command h, code_respOfWord s.rom w⟩

end Sys2Proof.Machine

/-!
SUPPORT. A run over presented words as one equation (20_memory.md R40), and the statement about the order of the responses
that follows from it.
-/

namespace Sys2Proof.Machine

open Sys2Proof.Safety

/-- A run of as many steps as there are words presented next answers exactly those words, each by `respOfWord` (R40). -/
theorem runSteps_commands {s : State} {ws : List Word} {rest : List HostAction}
    (h : s.stream = ws.map .command ++ rest) :
    runSteps ws.length s =
      .next { s with stream := rest, responses := s.responses ++ ws.map (respOfWord s.rom) } := by
  induction ws generalizing s with
  | nil =>
    refine congrArg Host.Outcome.next (state_ext rfl h ?_)
    exact (List.append_nil s.responses).symm
  | cons w ws ih =>
    rw [List.length_cons, runSteps_command ws.length h, ih (by rfl)]
    simp [State.respond]

/-- Settles O38: `respOfWord` at the given tables is the one function, and `runSteps_commands` is the run. -/
theorem responsesAnswerCommandsInOrder : Obligations.ResponsesAnswerCommandsInOrder := by
  intro rom
  refine ⟨respOfWord rom, fun s ws rest hrom hstream => ?_⟩
  subst hrom
  exact runSteps_commands hstream

end Sys2Proof.Machine

/-!
SUPPORT. Command words by their numbers (30_encoding.md R46 to R61): what the decoder answers for the words that are no
command, where the encoder puts each field, and the two statements that follow from them.
-/

namespace Sys2Proof.Machine

open Sys2Proof.Safety

/-! ## Illegal words -/

/-- The decoder with its conditions read as numbers (R61): the `op` of R48 and the `zero` fields of R50, R54 and R56. -/
theorem decode_eq (w : Word) :
    decode w =
      if opOf w = 1 then
        if bitsOf w 16 40 = 0 then .instr (.enc (valField w)) else .illegal .zeroFieldSet
      else if opOf w = 2 then .instr (.parse (strField w))
      else if opOf w = 3 then
        if bitsOf w 24 32 = 0 then .instr (.valid (tripleField w)) else .illegal .zeroFieldSet
      else if opOf w = 4 then
        if bitsOf w 24 32 = 0 then .instr (.derive (tripleField w)) else .illegal .zeroFieldSet
      else if opOf w = 5 then
        if bitsOf w 4 52 = 0 then .instr (.lookup (trlField w) (codeField w)) else .illegal .zeroFieldSet
      else if opOf w = 6 then .instr (.access (strField w))
      else .illegal .reservedOp := by
  simp only [decode, zeroV_eq_zero_iff, zeroT_eq_zero_iff, zeroL_eq_zero_iff]
  simp (disch := decide) only [BitVec.ofNat_eq_ofNat, opField_eq_iff]

theorem decode_of_reservedOp {w : Word} (h : ReservedOp w) : decode w = .illegal .reservedOp := by
  unfold ReservedOp at h
  rw [decode_eq, if_neg (by omega), if_neg (by omega), if_neg (by omega), if_neg (by omega), if_neg (by omega),
    if_neg (by omega)]

theorem decode_of_zeroFieldSet {w : Word} (h : ZeroFieldSet w) : decode w = .illegal .zeroFieldSet := by
  rw [decode_eq]
  obtain ⟨op, hz⟩ | ⟨op | op, hz⟩ | ⟨op, hz⟩ := h <;> simp [op, hz]

theorem respOfWord_of_illegal (rom : PermTables) {w : Word} {why : Illegal} (h : decode w = .illegal why) :
    respOfWord rom w = .error .illegalCmd := by
  rw [respOfWord, h]

/-- Settles O2: the decoder rejects a word of either kind, and a rejected word is answered `ILLEGAL_CMD`. -/
theorem illegalWordsAnswerIllegalCmd : Obligations.IllegalWordsAnswerIllegalCmd := by
  intro s w rest hs h
  have hr : respOfWord s.rom w = .error .illegalCmd := by
    obtain h | h := h
    · exact respOfWord_of_illegal s.rom (decode_of_reservedOp h)
    · exact respOfWord_of_illegal s.rom (decode_of_zeroFieldSet h)
  rw [step_command hs, hr]

/-! ## Field positions -/

/-- A word of three fields, cut as in `leading_field`. -/
theorem three_fields_toNat {m n : Nat} (op : Byte) (x : BitVec m) (y : BitVec n) :
    (op ++ x ++ y).toNat = op.toNat * 2 ^ (m + n) + x.toNat * 2 ^ n + y.toNat := by
  rw [concat_toNat, concat_toNat, Nat.pow_add]
  ring

theorem encodeChars_toNat (s : StrOperand) :
    (encodeChars s).toNat = s.ch0.toNat * 2 ^ 40 + s.ch1.toNat * 2 ^ 32 + s.ch2.toNat * 2 ^ 24 + s.ch3.toNat * 2 ^ 16
      + s.ch4.toNat * 2 ^ 8 + s.ch5.toNat := by
  simp only [encodeChars, concat_toNat]
  omega

theorem encodeTriple_toNat (t : Triple) :
    (encodeTriple t).toNat = t.b6.toNat * 2 ^ 16 + t.b7.toNat * 2 ^ 8 + t.b8.toNat := by
  simp only [encodeTriple, concat_toNat]
  omega

/-- Format V (R50). -/
theorem encode_enc_toNat (val : BitVec 16) : (encode (.enc val)).toNat = 0x01 * 2 ^ 56 + val.toNat :=
  three_fields_toNat 0x01 0#40 val

/-- Format S (R52), for either `op`. -/
theorem str_word_toNat (op : Byte) (s : StrOperand) :
    (op ++ s.len ++ encodeChars s).toNat = op.toNat * 2 ^ 56 + (s.len.toNat * 2 ^ 48 + s.ch0.toNat * 2 ^ 40
      + s.ch1.toNat * 2 ^ 32 + s.ch2.toNat * 2 ^ 24 + s.ch3.toNat * 2 ^ 16 + s.ch4.toNat * 2 ^ 8 + s.ch5.toNat) := by
  rw [three_fields_toNat, encodeChars_toNat]
  omega

/-- Format T (R54), for either `op`. -/
theorem triple_word_toNat (op : Byte) (t : Triple) :
    (op ++ 0#32 ++ encodeTriple t).toNat = op.toNat * 2 ^ 56
      + (t.b6.toNat * 2 ^ 16 + t.b7.toNat * 2 ^ 8 + t.b8.toNat) := by
  rw [three_fields_toNat, encodeTriple_toNat, BitVec.toNat_ofNat]
  omega

/-- Format L (R56). -/
theorem encode_lookup_toNat (trl : Bool) (code : AccessCode) :
    (encode (.lookup trl code)).toNat = 0x05 * 2 ^ 56 + trl.toNat * 2 ^ 3 + code.toNat := by
  rw [encode, concat_toNat, three_fields_toNat, BitVec.toNat_ofBool]
  simp only [BitVec.toNat_ofNat]
  omega

/-- Settles O7: one equation per format. -/
theorem encodedFieldsStandInPlace : Obligations.EncodedFieldsStandInPlace := by
  refine ⟨encode_enc_toNat, fun str => ?formatS, fun t => ?formatT, encode_lookup_toNat⟩
  case formatS => exact ⟨str_word_toNat 0x02 str, str_word_toNat 0x06 str⟩
  case formatT => exact ⟨triple_word_toNat 0x03 t, triple_word_toNat 0x04 t⟩

end Sys2Proof.Machine

/-!
SUPPORT. ENC by the number it is given (40_numeric_codec.md R70 to R82): its record is that of R70, its two responses are
told apart at 255, and a word of any command with a set `zero` bit is rejected.
-/

namespace Sys2Proof.Machine

open Sys2Proof.Safety

/-- The ten fields of the record (R70, R71, R74 to R79). -/
theorem encodeByte_encodesByte (v : Byte) : EncodesByte v.toNat (encodeByte v) := by
  have hinv := complement_toNat v
  refine ⟨rfl, hinv, texts_of_byte v, ?texts, charmapV_kind v, ?cp, ?kind, ?cpInverted⟩
  case texts => exact hinv ▸ texts_of_byte (~~~ v)
  case cp => exact congrArg BitVec.toNat (charmapV_cp v)
  case kind => exact hinv ▸ charmapI_kind (~~~ v)
  case cpInverted => exact (congrArg BitVec.toNat (charmapI_cp (~~~ v))).trans hinv

theorem encResp_of_le {val : BitVec 16} (h : val.toNat ≤ 255) :
    encResp val = .ok (.enc (encodeByte (val.extractLsb' 0 8))) :=
  if_neg (Nat.not_lt.2 h)

theorem encResp_of_gt {val : BitVec 16} (h : 255 < val.toNat) : encResp val = .error .invalidFormat :=
  if_pos h

/-- The low byte of a value up to 255 is the value (R82). -/
theorem lowByte_toNat {val : BitVec 16} (h : val.toNat ≤ 255) : (val.extractLsb' 0 8).toNat = val.toNat := by
  rw [field_toNat]
  omega

/-- Bits that are a `zero` field for command `op` must be zero in its words (30_encoding.md R58). -/
theorem rejectsSetZeroField_of_zeroFieldSet {op lo width : Nat}
    (h : ∀ w : Word, opOf w = op → bitsOf w lo width ≠ 0 → ZeroFieldSet w) : RejectsSetZeroField op lo width :=
  fun s w rest hs hop hz => illegalWordsAnswerIllegalCmd s w rest hs (.inr (h w hop hz))

/-- Settles O9: up to 255 the record is that of the value's low byte, above it there is none, and bits 55:16 are the
`zero` field of format V. -/
theorem encAnswersTheRecord : Obligations.EncAnswersTheRecord := by
  refine ⟨fun val s h => ?inRange, fun val s h => ?outOfRange, ?zeroField⟩
  case inRange =>
    refine ⟨encodeByte (val.extractLsb' 0 8), ?_, lowByte_toNat h ▸ encodeByte_encodesByte _⟩
    rw [exec_eq, respOf, encResp_of_le h]
  case outOfRange => rw [exec_eq, respOf, encResp_of_gt h]
  case zeroField => exact rejectsSetZeroField_of_zeroFieldSet fun w hop hz => .inl ⟨hop, hz⟩

end Sys2Proof.Machine

/-!
SUPPORT. The access-rights unit by its spec vocabulary (41_access_rights.md R95 to R128): one lemma for what each of its
functions answers, then the statements about PARSE, VALID, DERIVE, LOOKUP and ACCESS.
-/

namespace Sys2Proof.Machine

open Sys2Proof.Safety

/-! ## PARSE -/

theorem parseTriple_eq_none_iff (str : StrOperand) : parseTriple str = none ↔ ¬ SixHexDigits str := by
  rw [sixHexDigits_iff_parseTriple, Option.eq_none_iff_forall_ne_some, not_exists]

theorem parseResp_of_some {str : StrOperand} {t : Triple} (h : parseTriple str = some t) :
    parseResp str = .ok (.triple t) := by
  rw [parseResp, h]

theorem parseResp_of_none {str : StrOperand} (h : parseTriple str = none) :
    parseResp str = .error .invalidFormat := by
  rw [parseResp, h]

/-- Settles O10: `parseTriple` finds a triple exactly for six hexadecimal characters, and it is the one they spell. -/
theorem parseAnswersTheTriple : Obligations.ParseAnswersTheTriple := by
  refine ⟨fun str s h => ?accepted, fun str s h => ?rejected⟩
  case accepted =>
    obtain ⟨t, ht⟩ := (sixHexDigits_iff_parseTriple str).1 h
    refine ⟨t, ((parseTriple_eq_some_iff str t).1 ht).2, ?_⟩
    rw [exec_eq, respOf, parseResp_of_some ht]
  case rejected => rw [exec_eq, respOf, parseResp_of_none ((parseTriple_eq_none_iff str).2 h)]

/-! ## VALID -/

/-- VALID turns the checksum's report into its response (R106). -/
theorem validResp_eq_elim (t : Triple) : validResp t = (checksum t).elim (.ok .empty) .error := by
  unfold validResp
  cases checksum t <;> rfl

theorem validResp_eq (t : Triple) :
    validResp t =
      if C1 t then
        if C2 t then if C3 t then .ok .empty else .error .mismatch78 else .error .mismatch68
      else .error .mismatch67 := by
  rw [validResp_eq_elim, checksum_eq]
  split_ifs <;> rfl

/-- Settles O11: VALID reports what `checksum` does, and bits 55:24 are the `zero` field of format T. -/
theorem validReportsTheFirstFailingCheck : Obligations.ValidReportsTheFirstFailingCheck := by
  refine ⟨fun t s => ?checks, ?zeroField⟩
  case checks => rw [exec_eq, respOf, validResp_eq]
  case zeroField => exact rejectsSetZeroField_of_zeroFieldSet fun w hop hz => .inr (.inl ⟨.inl hop, hz⟩)

/-! ## DERIVE -/

theorem accessCodes_get (t : Triple) (b : Fin 4) : (accessCodes t).get b = accessCode t b := by
  fin_cases b <;> rfl

theorem accessCodes_derivesCodes (t : Triple) : DerivesCodes t (accessCodes t) := by
  intro b
  rw [accessCodes_get, accessCode_toNat]

/-- Settles O12: the four codes are those of R110, and bits 55:24 are the `zero` field of format T. -/
theorem deriveAnswersTheFourCodes : Obligations.DeriveAnswersTheFourCodes := by
  refine ⟨fun t s => ?codes, ?zeroField⟩
  case codes => exact ⟨accessCodes t, accessCodes_derivesCodes t, exec_eq (.derive t) s⟩
  case zeroField => exact rejectsSetZeroField_of_zeroFieldSet fun w hop hz => .inr (.inl ⟨.inr hop, hz⟩)

/-! ## LOOKUP -/

/-- Every access code numbers a row of a table of eight (R26). -/
theorem toList_getElem?_code {α : Type} (rows : Vector α 8) (code : AccessCode) :
    rows.toList[code.toNat]? = some (rows.get code.toFin) := by
  rw [Vector.getElem?_toList, Vector.getElem?_eq_getElem code.isLt]
  rfl

theorem trailerRow_is (rom : PermTables) (code : AccessCode) : TrailerRowIs rom code (trailerRow rom code) :=
  toList_getElem?_code rom.trailer code

theorem dataRow_is (rom : PermTables) (code : AccessCode) : DataRowIs rom code (dataRow rom code) :=
  toList_getElem?_code rom.data code

/-- Settles O13: each table has a row for each of the eight codes, and bits 55:4 are the `zero` field of format L. -/
theorem lookupAnswersTheRow : Obligations.LookupAnswersTheRow := by
  refine ⟨fun code s => ?trailer, fun code s => ?data, ?zeroField⟩
  case trailer => exact ⟨trailerRow s.rom code, trailerRow_is s.rom code, exec_eq (.lookup true code) s⟩
  case data => exact ⟨dataRow s.rom code, dataRow_is s.rom code, exec_eq (.lookup false code) s⟩
  case zeroField => exact rejectsSetZeroField_of_zeroFieldSet fun w hop hz => .inr (.inr ⟨hop, hz⟩)

/-! ## ACCESS -/

/-- Without a triple nothing is validated (R126, R128). -/
theorem accessResp_of_none (rom : PermTables) {str : StrOperand} (h : parseTriple str = none) :
    accessResp rom str = .error .invalidFormat := by
  rw [accessResp, h]

/-- The gate of R128: a triple's record is answered only where the checksum reports nothing. -/
theorem accessResp_of_some (rom : PermTables) {str : StrOperand} {t : Triple} (h : parseTriple str = some t) :
    accessResp rom str = (checksum t).elim (.ok (.access (accessRecord rom t))) .error := by
  simp only [accessResp, h]
  cases checksum t <;> rfl

theorem accessRecord_recordsAccess (rom : PermTables) (t : Triple) : RecordsAccess rom t (accessRecord rom t) := by
  refine ⟨rfl, accessCodes_derivesCodes t, fun b => ?data, trailerRow_is rom (accessCode t 3)⟩
  case data => fin_cases b <;> exact dataRow_is rom (accessCode t _)

/-- Settles O14: the response is `INVALID_FORMAT` without a triple; with one, the checksum decides between its report and
the record. -/
theorem accessRunsTheGatedPipeline : Obligations.AccessRunsTheGatedPipeline := by
  refine ⟨fun str s h => ?rejected, fun str t s hlen hspell => ?parsed⟩
  case rejected => rw [exec_eq, respOf, accessResp_of_none s.rom ((parseTriple_eq_none_iff str).2 h)]
  case parsed =>
    have hexec : exec (.access str) s =
        .next (s.respond ((checksum t).elim (.ok (.access (accessRecord s.rom t))) .error)) := by
      rw [exec_eq, respOf, accessResp_of_some s.rom ((parseTriple_eq_some_iff str t).2 ⟨hlen, hspell⟩)]
    rw [hexec, checksum_eq]
    refine ⟨fun h1 => ?c1Fails, fun h1 h2 => ?c2Fails, fun h1 h2 h3 => ?c3Fails, fun h1 h2 h3 => ?passes⟩
    case c1Fails => rw [if_neg h1]; rfl
    case c2Fails => rw [if_pos h1, if_neg h2]; rfl
    case c3Fails => rw [if_pos h1, if_pos h2, if_neg h3]; rfl
    case passes =>
      refine ⟨accessRecord s.rom t, accessRecord_recordsAccess s.rom t, ?_⟩
      rw [if_pos h1, if_pos h2, if_pos h3]; rfl

end Sys2Proof.Machine

/-!
SUPPORT. The order of the causes (60_exceptions.md R145): what each item of the list says of a word of each command, and
the statement that the reported status is the first item's that applies.
-/

namespace Sys2Proof.Machine

open Sys2Proof.Safety

/-! ## The command of a legal word -/

/-- The command whose `op` the word has, with the word's fields as its operands (30_encoding.md R48). -/
inductive CarriesCommand (w : Word) : Instr → Prop where
  | enc (hop : opOf w = 1) : CarriesCommand w (.enc (valField w))
  | parse (hop : opOf w = 2) : CarriesCommand w (.parse (strField w))
  | valid (hop : opOf w = 3) : CarriesCommand w (.valid (tripleField w))
  | derive (hop : opOf w = 4) : CarriesCommand w (.derive (tripleField w))
  | lookup (hop : opOf w = 5) : CarriesCommand w (.lookup (trlField w) (codeField w))
  | access (hop : opOf w = 6) : CarriesCommand w (.access (strField w))

theorem carriesCommand_of_decode {w : Word} {i : Instr} (h : decode w = .instr i) : CarriesCommand w i := by
  rw [decode_eq] at h
  split_ifs at h with h1 _ h2 h3 _ h4 _ h5 _ h6 <;> cases h
  · exact .enc h1
  · exact .parse h2
  · exact .valid h3
  · exact .derive h4
  · exact .lookup h5
  · exact .access h6

/-- Only the first two causes of R145 make a word illegal (R58, R60). -/
theorem illegal_cause_of_decode {w : Word} {why : Illegal} (h : decode w = .illegal why) :
    ReservedOp w ∨ ZeroFieldSet w := by
  rw [decode_eq] at h
  unfold ReservedOp ZeroFieldSet
  split_ifs at h <;> omega

/-! ## Format -/

/-- A field of a word by its bits (00_scope.md R10). -/
theorem extractLsb'_eq_ofNat (w : Word) (lo width : Nat) :
    w.extractLsb' lo width = BitVec.ofNat width (bitsOf w lo width) := by
  rw [BitVec.toNat_eq, field_toNat, BitVec.toNat_ofNat, Nat.mod_mod]

theorem strField_eq_slots (w : Word) :
    strField w = ⟨w.extractLsb' 48 8, slotOf w 0, slotOf w 1, slotOf w 2, slotOf w 3, slotOf w 4, slotOf w 5⟩ := by
  simp only [strField, slotOf, extractLsb'_eq_ofNat]

/-- The operand of format S is well formed exactly where item 3 of R145 finds nothing in it. -/
theorem sixHexDigits_strField_iff (w : Word) :
    SixHexDigits (strField w) ↔ bitsOf w 48 8 = 6 ∧ ∀ i < 6, ∃ n, HexDigit (slotOf w i) n := by
  simp only [strField_eq_slots, SixHexDigits, field_toNat, List.forall_mem_cons, List.not_mem_nil, false_imp_iff,
    implies_true, and_true, Nat.forall_lt_succ_left, Nat.not_lt_zero]

theorem badFormat_enc_iff {w : Word} (hop : opOf w = 1) : BadFormat w ↔ 255 < (valField w).toNat := by
  rw [valField, field_toNat]
  simp [BadFormat, hop, bitsOf]

theorem badFormat_str_iff {w : Word} (hop : opOf w = 2 ∨ opOf w = 6) :
    BadFormat w ↔ parseTriple (strField w) = none := by
  have hne : opOf w ≠ 1 := by omega
  simp only [parseTriple_eq_none_iff, sixHexDigits_strField_iff, BadFormat, hop, hne, false_and, true_and, false_or,
    not_and_or, not_forall, not_exists, exists_prop, ne_eq]

theorem not_badFormat {w : Word} (h : opOf w = 3 ∨ opOf w = 4 ∨ opOf w = 5) : ¬ BadFormat w := by
  unfold BadFormat
  omega

/-! ## The bytes to be validated -/

/-- The triple `t` is what the word carries to be validated, and the word carries nothing else. -/
def ValidatesExactly (w : Word) (t : Triple) : Prop :=
  ∀ b6 b7 b8, ValidatedBytes w b6 b7 b8 ↔ b6 = t.b6.toNat ∧ b7 = t.b7.toNat ∧ b8 = t.b8.toNat

theorem validatesExactly_valid {w : Word} (hop : opOf w = 3) : ValidatesExactly w (tripleField w) := by
  intro b6 b7 b8
  simp only [tripleField, field_toNat]
  simp [ValidatedBytes, hop, bitsOf]

/-- A digit's value is determined by its character, so the six characters spell one triple only (41_access_rights.md
R97, R99). -/
theorem validatesExactly_access {w : Word} {t : Triple} (hop : opOf w = 6) (h : parseTriple (strField w) = some t) :
    ValidatesExactly w t := by
  rw [parseTriple_eq_some_iff, strField_eq_slots] at h
  obtain ⟨-, h0, h1, h2, h3, h4, h5, d0, d1, d2, d3, d4, d5, e6, e7, e8⟩ := h
  intro b6 b7 b8
  rw [e6, e7, e8]
  constructor
  · rintro (⟨hop3, -⟩ | ⟨-, g0, g1, g2, g3, g4, g5, f0, f1, f2, f3, f4, f5, rfl, rfl, rfl⟩)
    · omega
    · rw [hexDigit_unique f0 d0, hexDigit_unique f1 d1, hexDigit_unique f2 d2, hexDigit_unique f3 d3,
        hexDigit_unique f4 d4, hexDigit_unique f5 d5]
      exact ⟨rfl, rfl, rfl⟩
  · rintro ⟨q6, q7, q8⟩
    exact .inr ⟨hop, h0, h1, h2, h3, h4, h5, d0, d1, d2, d3, d4, d5, q6, q7, q8⟩

/-! ## The first cause -/

/-- After the format, items 4 to 6 of R145 are the checksum's report, in its order (R101). -/
theorem firstCause_checksum {w : Word} {t : Triple} (p : Payload) (hb : ¬ BadFormat w) (h : ValidatesExactly w t) :
    FirstCause ((causes w).drop 2) ((checksum t).elim (.ok p) Resp.error).status := by
  refine .inr ⟨hb, ?_⟩
  have hbytes (P : Nat → Nat → Nat → Prop) :
      (∃ b6 b7 b8, ValidatedBytes w b6 b7 b8 ∧ P b6 b7 b8) ↔ P t.b6.toNat t.b7.toNat t.b8.toNat := by
    simp [h _ _ _]
  simp only [FirstCause, hbytes fun b6 b7 _ => b7 / 16 ≠ 15 - b6 % 16,
    hbytes fun b6 _ b8 => b8 % 16 ≠ 15 - b6 / 16, hbytes fun _ b7 b8 => b8 / 16 ≠ 15 - b7 % 16, not_not]
  rw [checksum_eq]
  split_ifs with h1 h2 h3
  · exact .inr ⟨h1, .inr ⟨h2, .inr ⟨h3, rfl⟩⟩⟩
  · exact .inr ⟨h1, .inr ⟨h2, .inl ⟨h3, rfl⟩⟩⟩
  · exact .inr ⟨h1, .inl ⟨h2, rfl⟩⟩
  · exact .inl ⟨h1, rfl⟩

/-- A command other than VALID and ACCESS has nothing validated. -/
theorem firstCause_ok {w : Word} (hb : ¬ BadFormat w) (h3 : opOf w ≠ 3) (h6 : opOf w ≠ 6) :
    FirstCause ((causes w).drop 2) .ok := by
  simp [causes, FirstCause, ValidatedBytes, hb, h3, h6]

theorem firstCause_invalidFormat {w : Word} (hb : BadFormat w) : FirstCause ((causes w).drop 2) .invalidFormat :=
  .inl ⟨hb, rfl⟩

/-- Items 3 to 6 of R145, for the answer of a command. -/
theorem firstCause_respOf (rom : PermTables) {w : Word} {i : Instr} (h : CarriesCommand w i) :
    FirstCause ((causes w).drop 2) (respOf rom i).status := by
  cases h with
  | enc hop =>
    rw [respOf]
    by_cases hv : 255 < (valField w).toNat
    · rw [encResp_of_gt hv]
      exact firstCause_invalidFormat ((badFormat_enc_iff hop).2 hv)
    · rw [encResp_of_le (Nat.not_lt.1 hv)]
      exact firstCause_ok (mt (badFormat_enc_iff hop).1 hv) (by omega) (by omega)
  | parse hop =>
    have hbad := badFormat_str_iff (.inl hop)
    rw [respOf]
    cases hp : parseTriple (strField w) with
    | none =>
      rw [parseResp_of_none hp]
      exact firstCause_invalidFormat (hbad.2 hp)
    | some t =>
      rw [parseResp_of_some hp]
      exact firstCause_ok (by simp [hbad, hp]) (by omega) (by omega)
  | valid hop =>
    rw [respOf, validResp_eq_elim]
    exact firstCause_checksum _ (not_badFormat (by omega)) (validatesExactly_valid hop)
  | derive hop =>
    exact firstCause_ok (not_badFormat (by omega)) (by omega) (by omega)
  | lookup hop =>
    have hok : (respOf rom (.lookup (trlField w) (codeField w))).status = .ok := by
      cases trlField w <;> rfl
    rw [hok]
    exact firstCause_ok (not_badFormat (by omega)) (by omega) (by omega)
  | access hop =>
    have hbad := badFormat_str_iff (.inr hop)
    rw [respOf]
    cases hp : parseTriple (strField w) with
    | none =>
      rw [accessResp_of_none rom hp]
      exact firstCause_invalidFormat (hbad.2 hp)
    | some t =>
      rw [accessResp_of_some rom hp]
      exact firstCause_checksum _ (by simp [hbad, hp]) (validatesExactly_access hop hp)

/-- Items 1 and 2 of R145 are the decoder's rejections, reported alike; a word with neither is a command. -/
theorem firstCause_respOfWord (rom : PermTables) (w : Word) : FirstCause (causes w) (respOfWord rom w).status := by
  by_cases hr : ReservedOp w
  · rw [respOfWord_of_illegal rom (decode_of_reservedOp hr)]
    exact .inl ⟨hr, rfl⟩
  by_cases hz : ZeroFieldSet w
  · rw [respOfWord_of_illegal rom (decode_of_zeroFieldSet hz)]
    exact .inr ⟨hr, .inl ⟨hz, rfl⟩⟩
  refine .inr ⟨hr, .inr ⟨hz, ?_⟩⟩
  rw [respOfWord]
  cases hd : decode w with
  | instr i => exact firstCause_respOf rom (carriesCommand_of_decode hd)
  | illegal why => exact ((illegal_cause_of_decode hd).elim hr hz).elim

/-- Settles O3: a step answers the word with `respOfWord`, whose status is the first cause's. -/
theorem statusIsTheFirstCause : Obligations.StatusIsTheFirstCause :=
  fun s w _ hs => ⟨respOfWord s.rom w, step_command hs, firstCause_respOfWord s.rom w⟩

end Sys2Proof.Machine

/-!
SUPPORT. The decoder and the encoder against each other (30_encoding.md R45 to R61): a word decodes to the command it
carries where its `zero` field is clear, so encoding and decoding undo each other on exactly the words of the opcode
table.
-/

namespace Sys2Proof.Machine

open Sys2Proof.Safety

/-! ## Legal words -/

/-- The words that are some command (R58, R60). -/
theorem exists_decode_iff (w : Word) : (∃ i, decode w = .instr i) ↔ ¬ ReservedOp w ∧ ¬ ZeroFieldSet w := by
  constructor
  · rintro ⟨i, h⟩
    refine ⟨fun hr => ?_, fun hz => ?_⟩
    · rw [decode_of_reservedOp hr] at h
      cases h
    · rw [decode_of_zeroFieldSet hz] at h
      cases h
  · rintro ⟨hr, hz⟩
    cases hd : decode w with
    | instr i => exact ⟨i, rfl⟩
    | illegal why => exact ((illegal_cause_of_decode hd).elim hr hz).elim

/-- The decoder on the words it accepts (R61): the command carried, with a clear `zero` field. -/
theorem decode_eq_instr_iff (w : Word) (i : Instr) :
    decode w = .instr i ↔ CarriesCommand w i ∧ ¬ ZeroFieldSet w := by
  constructor
  · intro h
    exact ⟨carriesCommand_of_decode h, ((exists_decode_iff w).1 ⟨i, h⟩).2⟩
  · rintro ⟨hcarries, hzero⟩
    unfold ZeroFieldSet at hzero
    rw [decode_eq]
    cases hcarries with
    | enc hop => simp [hop, show bitsOf w 16 40 = 0 by omega]
    | valid hop | derive hop => simp [hop, show bitsOf w 24 32 = 0 by omega]
    | lookup hop => simp [hop, show bitsOf w 4 52 = 0 by omega]
    | parse hop | access hop => simp [hop]

/-! ## The opcode table -/

theorem opcodeRow_mem_opcodeTable (i : Instr) : opcodeRow i ∈ opcodeTable := by
  cases i <;> simp [opcodeTable, opcodeRow]

/-- A command's encoding belongs to its row (R48). -/
theorem opcodeRow_accepts_encode (i : Instr) : (opcodeRow i).accepts (encode i) = true :=
  match i with
  | .enc val => Laws.OpcodeRow.enc val
  | .parse str => Laws.OpcodeRow.parse str
  | .valid t => Laws.OpcodeRow.valid t
  | .derive t => Laws.OpcodeRow.derive t
  | .lookup trl code => Laws.OpcodeRow.lookup trl code
  | .access str => Laws.OpcodeRow.access str

/-- The bits of a word that a row's mask covers are the pattern's. -/
theorem bitsOf_of_accepts {row : OpcodeRow} {w : Word} {lo width v : Nat} (h : row.accepts w = true)
    (hmask : row.mask.extractLsb' lo width = BitVec.allOnes width) (hpattern : bitsOf row.pattern lo width = v) :
    bitsOf w lo width = v := by
  have heq : w &&& row.mask = row.pattern := beq_iff_eq.1 h
  rw [← hpattern, bitsOf, bitsOf, ← field_toNat, ← field_toNat, ← heq, BitVec.extractLsb'_and, hmask,
    BitVec.and_allOnes]

/-- Every row's mask covers `op` (R46). -/
theorem opOf_of_opcodeRow_accepts {w : Word} {i : Instr} (h : (opcodeRow i).accepts w = true) :
    opOf w = opNumber i := by
  have hmask : (opcodeRow i).mask.extractLsb' 56 8 = BitVec.allOnes 8 := by
    cases i <;> (dsimp only [opcodeRow]; decide)
  have hpattern : bitsOf (opcodeRow i).pattern 56 8 = opNumber i := by
    cases i <;> (dsimp only [opcodeRow, opNumber]; decide)
  have hbits := bitsOf_of_accepts h hmask hpattern
  have := w.isLt
  unfold bitsOf at hbits
  unfold opOf
  omega

/-- The lowest bit and the width of the `zero` field of a command's format (R50, R54, R56); format S has none (R52). -/
def zeroBits : Instr → Nat × Nat
  | .enc _ => (16, 40)
  | .valid _ | .derive _ => (24, 32)
  | .lookup _ _ => (4, 52)
  | .parse _ | .access _ => (48, 0)

theorem zeroFieldSet_iff {w : Word} {i : Instr} (hop : opOf w = opNumber i) :
    ZeroFieldSet w ↔ bitsOf w (zeroBits i).1 (zeroBits i).2 ≠ 0 := by
  unfold ZeroFieldSet
  cases i <;> simp [hop, opNumber, zeroBits, bitsOf, Nat.mod_one]

/-- Every row's mask covers the `zero` field, and its pattern has it clear (R58). -/
theorem zeroBits_of_opcodeRow_accepts {w : Word} {i : Instr} (h : (opcodeRow i).accepts w = true) :
    bitsOf w (zeroBits i).1 (zeroBits i).2 = 0 := by
  refine bitsOf_of_accepts h ?mask ?pattern
  case mask => cases i <;> (dsimp only [opcodeRow, zeroBits]; decide)
  case pattern => cases i <;> (dsimp only [opcodeRow, zeroBits]; decide)

theorem not_reservedOp_of_opOf {w : Word} {i : Instr} (hop : opOf w = opNumber i) : ¬ ReservedOp w := by
  unfold ReservedOp
  cases i <;> simp [hop, opNumber]

/-- A row accepts commands only. -/
theorem legal_of_opcodeRow_accepts {w : Word} {i : Instr} (h : (opcodeRow i).accepts w = true) :
    ¬ ReservedOp w ∧ ¬ ZeroFieldSet w := by
  have hop := opOf_of_opcodeRow_accepts h
  rw [zeroFieldSet_iff hop, zeroBits_of_opcodeRow_accepts h]
  exact ⟨not_reservedOp_of_opOf hop, fun h => h rfl⟩

theorem exists_opcodeRow_of_mem {row : OpcodeRow} (h : row ∈ opcodeTable) : ∃ i, row = opcodeRow i := by
  simp only [opcodeTable, List.mem_cons, List.not_mem_nil, or_false] at h
  obtain h | h | h | h | h | h := h <;> exact ⟨_, h⟩

/-! ## The fields of an encoded command -/

theorem valField_encode (val : BitVec 16) : valField (encode (.enc val)) = val :=
  BitVec.extractLsb'_append_eq_right (a := 0x01#8 ++ 0#40)

/-- Format S, for either `op`. -/
theorem strField_word (op : Byte) (str : StrOperand) : strField (op ++ str.len ++ encodeChars str) = str := by
  simp (disch := omega) only [strField, encodeChars, BitVec.extractLsb'_append_eq_of_le,
    BitVec.extractLsb'_append_eq_of_add_le, Nat.sub_self, BitVec.extractLsb'_eq_self]

/-- Format T, for either `op`. -/
theorem tripleField_word (op : Byte) (t : Triple) : tripleField (op ++ 0#32 ++ encodeTriple t) = t := by
  simp (disch := omega) only [tripleField, encodeTriple, BitVec.extractLsb'_append_eq_of_le,
    BitVec.extractLsb'_append_eq_of_add_le, Nat.sub_self, BitVec.extractLsb'_eq_self]

theorem trlField_encode : ∀ (trl : Bool) (code : AccessCode), trlField (encode (.lookup trl code)) = trl := by
  decide

theorem codeField_encode : ∀ (trl : Bool) (code : AccessCode), codeField (encode (.lookup trl code)) = code := by
  decide

/-- An encoded command stands in the fields of its own format. -/
theorem carriesCommand_encode (i : Instr) : CarriesCommand (encode i) i := by
  have hop := opOf_encode i
  cases i with
  | enc val => simpa only [valField_encode] using CarriesCommand.enc hop
  | parse str => simpa only [encode, strField_word] using CarriesCommand.parse hop
  | valid t => simpa only [encode, tripleField_word] using CarriesCommand.valid hop
  | derive t => simpa only [encode, tripleField_word] using CarriesCommand.derive hop
  | lookup trl code => simpa only [trlField_encode, codeField_encode] using CarriesCommand.lookup hop
  | access str => simpa only [encode, strField_word] using CarriesCommand.access hop

/-- Settles O5: an encoded command carries itself, with a clear `zero` field. -/
theorem decodeOfEncode : Obligations.DecodeOfEncode :=
  fun i =>
    have ⟨_, hzero⟩ := legal_of_opcodeRow_accepts (opcodeRow_accepts_encode i)
    (decode_eq_instr_iff (encode i) i).2 ⟨carriesCommand_encode i, hzero⟩

/-! ## The word of its fields -/

theorem fields_formatV (w : Word) : opField w ++ zeroV w ++ valField w = w := by
  have := w.isLt
  simp only [BitVec.toNat_eq, concat_toNat, opField, zeroV, valField, field_toNat]
  omega

theorem fields_formatS (w : Word) : opField w ++ (strField w).len ++ encodeChars (strField w) = w := by
  have := w.isLt
  rw [BitVec.toNat_eq, str_word_toNat]
  simp only [opField, strField, field_toNat]
  omega

theorem fields_formatT (w : Word) : opField w ++ zeroT w ++ encodeTriple (tripleField w) = w := by
  have := w.isLt
  rw [BitVec.toNat_eq, three_fields_toNat, encodeTriple_toNat]
  simp only [opField, tripleField, zeroT, field_toNat]
  omega

theorem fields_formatL (w : Word) : opField w ++ zeroL w ++ BitVec.ofBool (trlField w) ++ codeField w = w := by
  have := w.isLt
  simp only [BitVec.toNat_eq, concat_toNat, opField, zeroL, trlField, codeField, field_toNat, BitVec.toNat_ofBool,
    BitVec.getLsbD, Nat.toNat_testBit]
  omega

/-- A command word without a set `zero` bit has no bit that its command does not have. -/
theorem encode_of_carriesCommand {w : Word} {i : Instr} (h : CarriesCommand w i) (hz : ¬ ZeroFieldSet w) :
    encode i = w := by
  have hopField {k : Nat} (hk : k < 256) (hop : opOf w = k) : opField w = BitVec.ofNat 8 k :=
    (opField_eq_iff w k hk).2 hop
  unfold ZeroFieldSet at hz
  cases h with
  | enc hop =>
    have e := fields_formatV w
    rwa [hopField (by decide) hop, (zeroV_eq_zero_iff w).2 (by omega)] at e
  | parse hop =>
    have e := fields_formatS w
    rwa [hopField (by decide) hop] at e
  | valid hop =>
    have e := fields_formatT w
    rwa [hopField (by decide) hop, (zeroT_eq_zero_iff w).2 (by omega)] at e
  | derive hop =>
    have e := fields_formatT w
    rwa [hopField (by decide) hop, (zeroT_eq_zero_iff w).2 (by omega)] at e
  | lookup hop =>
    have e := fields_formatL w
    rwa [hopField (by decide) hop, (zeroL_eq_zero_iff w).2 (by omega)] at e
  | access hop =>
    have e := fields_formatS w
    rwa [hopField (by decide) hop] at e

/-- Settles O6: a word that decodes to a command has its `zero` field clear, so it is put together from the fields of
that command. -/
theorem encodeOfDecode : Obligations.EncodeOfDecode := by
  intro w i h
  obtain ⟨hcarries, hzero⟩ := (decode_eq_instr_iff w i).1 h
  exact encode_of_carriesCommand hcarries hzero

/-- Settles O4: a decoded word is an encoding, which the row of its command accepts; a row's mask leaves no room for a
reserved `op` or a set `zero` bit. -/
theorem decoderAcceptsExactlyTheTable : Obligations.DecoderAcceptsExactlyTheTable := by
  intro w
  rw [legalWord, List.any_eq_true]
  constructor
  · rintro ⟨i, h⟩
    obtain rfl := encodeOfDecode w i h
    exact ⟨opcodeRow i, opcodeRow_mem_opcodeTable i, opcodeRow_accepts_encode i⟩
  · rintro ⟨row, hmem, haccepts⟩
    obtain ⟨i, rfl⟩ := exists_opcodeRow_of_mem hmem
    exact (exists_decode_iff w).2 (legal_of_opcodeRow_accepts haccepts)

/-! ## Words and steps -/

/-- Settles O1: the response of a word that decodes is that of its command, on the same tables. -/
theorem fetchedCommandRunsItsInstruction : Obligations.FetchedCommandRunsItsInstruction := by
  intro s w rest i hs hd
  rw [step_command hs, exec_eq, respOfWord, hd]

/-- Settles O8. -/
theorem sampleWordsDecode : Obligations.SampleWordsDecode := by
  unfold Obligations.SampleWordsDecode
  decide

end Sys2Proof.Machine

/-!
SUPPORT. What every step keeps (10_state.md R15 to R28, 60_exceptions.md R143): the frame of a command, the soundness of
the received responses, and the tables and responses along a run, alone or in a system.
-/

namespace Sys2Proof.Machine

open Sys2Proof.Safety

/-! ## The frame -/

/-- Settles O18: a command adds its one response and touches nothing else. -/
theorem commandFrame : Obligations.CommandFrame := by
  intro i s u h
  rw [exec_eq] at h
  cases h
  exact ⟨rfl, rfl, rfl, _, respond_responses s (respOf s.rom i)⟩

/-- Settles O34, by the first host action: none, a reset or a command. -/
theorem everyStepGoesOn : Obligations.EveryStepGoesOn := by
  intro s
  match hs : s.stream with
  | [] => exact ⟨s, step_idle hs, by simp [hs]⟩
  | .reset :: rest => exact ⟨_, step_reset hs, by simp⟩
  | .command w :: rest => exact ⟨_, step_command hs, by simp⟩

/-! ## Sound responses -/

theorem checksum_eq_none_iff (t : Triple) : checksum t = none ↔ C1 t ∧ C2 t ∧ C3 t := by
  rw [checksum_eq]
  split_ifs with h1 h2 h3
  · exact iff_of_true rfl ⟨h1, h2, h3⟩
  · exact iff_of_false nofun fun ⟨_, _, h⟩ => h3 h
  · exact iff_of_false nofun fun ⟨_, h, _⟩ => h2 h
  · exact iff_of_false nofun fun ⟨h, _, _⟩ => h1 h

/-- A command answers nothing unsound. -/
theorem Answers.sound {rom : PermTables} {i : Instr} {r : Resp} (h : Answers rom i r) : SoundResp rom r := by
  cases h with
  | encOk => exact encodeByte_encodesByte _
  | lookupT code => exact List.mem_of_getElem? (trailerRow_is rom code)
  | lookupD code => exact List.mem_of_getElem? (dataRow_is rom code)
  | accessOk hp hc =>
    obtain ⟨h1, h2, h3⟩ := (checksum_eq_none_iff _).1 hc
    exact ⟨h1, h2, h3, accessRecord_recordsAccess rom _⟩
  | parseOk | validOk | derive | encBad | parseBad | validBad | accessBad | accessMismatch => trivial

theorem respOfWord_sound (rom : PermTables) (w : Word) : SoundResp rom (respOfWord rom w) := by
  unfold respOfWord
  cases decode w with
  | instr i => exact (answers_respOf rom i).sound
  | illegal => trivial

theorem inv_respond {s : State} {r : Resp} (h : Inv s) (hr : SoundResp s.rom r) : Inv (s.respond r) := by
  intro q hq
  obtain hq | rfl := List.mem_append.1 hq |>.imp_right List.mem_singleton.1
  · exact h q hq
  · exact hr

/-- Settles O35: the one response a step can add is the answer to a word, which is sound. -/
theorem everyStepKeepsResponsesSound : Obligations.EveryStepKeepsResponsesSound := by
  intro s u hinv h
  obtain ⟨-, rfl⟩ | ⟨rest, -, rfl⟩ | ⟨w, rest, -, rfl⟩ := step_cases h
  · exact hinv
  · exact hinv
  · exact inv_respond (s := { s with stream := rest }) hinv (respOfWord_sound s.rom w)

/-- Settles O36. -/
theorem responsesSoundAtReset : Obligations.ResponsesSoundAtReset :=
  fun _ h => (List.not_mem_nil h).elim

/-- Settles O37. -/
theorem resetLeavesNoResponse : Obligations.ResetLeavesNoResponse :=
  ⟨rfl, rfl, rfl⟩

/-! ## Runs -/

theorem step_eq_advance (s : State) : step s = .next (advance s) := by
  obtain ⟨u, hu, -⟩ := everyStepGoesOn s
  rw [advance, hu]

@[simp] theorem runSteps_succ (n : Nat) (s : State) : runSteps (n + 1) s = runSteps n (advance s) := by
  rw [runSteps, step_eq_advance]

@[simp] theorem advance_rom (s : State) : (advance s).rom = s.rom := by
  obtain ⟨u, hu, -, hrom, -⟩ := everyStepGoesOn s
  rwa [advance, hu]

theorem responses_prefix_advance (s : State) : s.responses <+: (advance s).responses := by
  obtain ⟨-, h⟩ | ⟨rest, -, h⟩ | ⟨w, rest, -, h⟩ := step_cases (step_eq_advance s)
  · rw [h]
  · rw [h]
  · rw [h, respond_responses]
    exact List.prefix_append _ _

/-- Settles O40, by induction on the number of steps. -/
theorem runsKeepTablesAndResponses : Obligations.RunsKeepTablesAndResponses := by
  intro n
  induction n with
  | zero => exact fun s => ⟨s, rfl, rfl, List.prefix_rfl⟩
  | succ n ih =>
    intro s
    obtain ⟨u, hrun, hrom, hprefix⟩ := ih (advance s)
    exact ⟨u, (runSteps_succ n s).trans hrun, hrom.trans (advance_rom s),
      (responses_prefix_advance s).trans hprefix⟩

/-! ## Resets -/

/-- The words a stream presents, without the resets between them. -/
def wordsOf : List HostAction → List Word
  | [] => []
  | .command w :: rest => w :: wordsOf rest
  | .reset :: rest => wordsOf rest

theorem filter_ne_reset (l : List HostAction) : l.filter (· ≠ .reset) = (wordsOf l).map .command := by
  induction l with
  | nil => rfl
  | cons a rest ih => cases a <;> simpa [wordsOf] using ih

/-- A run over the whole stream answers the words it presents; a reset takes its step and leaves nothing behind. -/
theorem runSteps_stream (s : State) :
    runSteps s.stream.length s =
      .next { s with stream := [], responses := s.responses ++ (wordsOf s.stream).map (respOfWord s.rom) } := by
  generalize h : s.stream = l
  induction l generalizing s with
  | nil => exact congrArg Host.Outcome.next (state_ext rfl h (List.append_nil s.responses).symm)
  | cons a rest ih =>
    cases a with
    | reset =>
      rw [List.length_cons, runSteps_reset rest.length h, ih _ rfl]
      rfl
    | command w =>
      rw [List.length_cons, runSteps_command rest.length h, ih _ rfl]
      simp [wordsOf, State.respond]

/-- Settles O39: both runs answer the words that the stream presents. -/
theorem hostResetsChangeNoResponse : Obligations.HostResetsChangeNoResponse := by
  intro s
  refine ⟨_, _, runSteps_stream s, ?_, rfl, rfl⟩
  rw [filter_ne_reset, List.length_map]
  exact runSteps_commands (List.append_nil _).symm

/-! ## Systems -/

/-- A step of entry `j` leaves the others as they are (20_memory.md R41). -/
theorem getElem?_stepAt (y : System) (j k : Nat) :
    (System.stepAt j y)[k]? = if j = k then y[k]?.map advance else y[k]? := by
  rw [System.stepAt, List.getElem?_modify]
  split_ifs <;> simp

/-- Settles O41, by induction on the schedule. -/
theorem instancesDoNotInterfere : Obligations.InstancesDoNotInterfere := by
  intro y schedule k
  induction schedule generalizing y with
  | nil => exact Option.map_id'.symm
  | cons j schedule ih =>
    have hrun : System.run y (j :: schedule) = System.run (System.stepAt j y) schedule := rfl
    rw [hrun, ih, getElem?_stepAt, List.count_cons]
    by_cases h : j = k
    · simp [h, runAlone, Function.comp_def]
    · simp [h]

/-! ## ACCESS and the primitive commands -/

@[simp] theorem issue_eq (i : Instr) (s : State) :
    issue i s = some (respOf s.rom i, s.respond (respOf s.rom i)) := by
  simp [issue, exec_eq]

theorem issueDataRow_eq (code : AccessCode) (s : State) :
    issueDataRow code s = some (dataRow s.rom code, s.respond (.ok (.drow (dataRow s.rom code)))) := by
  simp [issueDataRow, respOf, lookupResp]

theorem issueTrailerRow_eq (code : AccessCode) (s : State) :
    issueTrailerRow code s = some (trailerRow s.rom code, s.respond (.ok (.trow (trailerRow s.rom code)))) := by
  simp [issueTrailerRow, respOf, lookupResp]

theorem issueLookups_eq (t : Triple) (s : State) :
    issueLookups t (accessCodes t) s = some (.ok (.access (accessRecord s.rom t))) := by
  simp [issueLookups, issueDataRow_eq, issueTrailerRow_eq, accessRecord, accessCodes]

theorem issueDerive_eq (t : Triple) (s : State) :
    issueDerive t s = some (.ok (.access (accessRecord s.rom t))) := by
  simp [issueDerive, respOf, issueLookups_eq]

/-- The host's gate on VALID's status (70_reset_and_hazards.md R166). -/
theorem issueValid_eq (t : Triple) (s : State) :
    issueValid t s = some ((checksum t).elim (.ok (.access (accessRecord s.rom t))) .error) := by
  rw [issueValid, issue_eq, respOf, validResp_eq_elim]
  cases checksum t with
  | none => exact issueDerive_eq t _
  | some e => rfl

/-- The host collects what ACCESS answers (41_access_rights.md R130). -/
theorem pipeline_eq (str : StrOperand) (s : State) : pipeline str s = some (accessResp s.rom str) := by
  rw [pipeline, issue_eq, respOf]
  cases hp : parseTriple str with
  | none => rw [parseResp_of_none hp, accessResp_of_none s.rom hp]
  | some t =>
    rw [parseResp_of_some hp, accessResp_of_some s.rom hp]
    exact issueValid_eq t _

/-- Settles O15: both sides are the same gates in the same order. -/
theorem accessEqualsThePrimitives : Obligations.AccessEqualsThePrimitives :=
  fun str s => ⟨accessResp s.rom str, exec_eq (.access str) s, pipeline_eq str s⟩

end Sys2Proof.Machine

/-!
SUPPORT. Properties of ENC's record (40_numeric_codec.md section 5): the texts read back, the record of the complement,
and the two character mappings against each other.
-/

namespace Sys2Proof.Machine

open Sys2Proof.Safety

/-! ## ENC of a byte and of its complement -/

theorem exec_enc_of_le {val : BitVec 16} (h : val.toNat ≤ 255) (s : State) :
    exec (.enc val) s = .next (s.respond (.ok (.enc (encodeByte (val.extractLsb' 0 8))))) := by
  rw [exec_eq, respOf, encResp_of_le h]

theorem complement_val_toNat {val : BitVec 16} (h : val.toNat ≤ 255) : (255 - val).toNat = 255 - val.toNat := by
  rw [BitVec.toNat_sub_of_le (BitVec.le_def.2 h)]
  rfl

theorem lowByte_complement {val : BitVec 16} (h : val.toNat ≤ 255) :
    (255 - val).extractLsb' 0 8 = ~~~ val.extractLsb' 0 8 := by
  have hc := complement_val_toNat h
  rw [BitVec.toNat_eq, lowByte_toNat (by omega), complement_toNat, lowByte_toNat h, hc]

theorem exec_enc_complement {val : BitVec 16} (h : val.toNat ≤ 255) (s : State) :
    exec (.enc (255 - val)) s = .next (s.respond (.ok (.enc (encodeByte (~~~ val.extractLsb' 0 8))))) := by
  have hc := complement_val_toNat h
  rw [exec_enc_of_le (by omega), lowByte_complement h]

/-! ## Digit texts -/

/-- R72's digits and R97's are the same characters. -/
theorem hexval_digit16 : ∀ d : Nibble, hexval (digit16 d) = some d := by decide

/-- Horner's rule over the eight digits of a text in base 2. -/
theorem foldl_binary_digits (v : Nat) (hv : v < 256) :
    (List.finRange 8).foldl (fun n i => 2 * n + v / 2 ^ (7 - i.val) % 2) 0 = v := by
  simp [List.finRange]
  omega

/-- A bit of a complement (00_scope.md R12). -/
theorem complement_bit {n : Nat} (v : BitVec n) {k : Nat} (hk : k < n) :
    (~~~ v).toNat / 2 ^ k % 2 = 1 - v.toNat / 2 ^ k % 2 := by
  rw [← Nat.toNat_testBit, ← Nat.toNat_testBit, BitVec.testBit_toNat, BitVec.testBit_toNat, BitVec.getLsbD_not]
  cases v.getLsbD k <;> simp [hk]

/-- A character of the binary text is `1` where the bit is set. -/
theorem bin8_get_eq_one_iff (v : Byte) (i : Fin 8) :
    (bin8 v).get i = 0x31 ↔ v.toNat / 2 ^ (7 - i.val) % 2 = 1 := by
  have ⟨hbinary, _⟩ := texts_of_byte v
  rw [BitVec.toNat_eq, hbinary i]
  show 48 + _ = 49 ↔ _ = 1
  omega

theorem bin8_get_eq_zero_iff (v : Byte) (i : Fin 8) :
    (bin8 v).get i = 0x30 ↔ v.toNat / 2 ^ (7 - i.val) % 2 = 0 := by
  have ⟨hbinary, _⟩ := texts_of_byte v
  rw [BitVec.toNat_eq, hbinary i]
  show 48 + _ = 48 ↔ _ = 0
  omega

theorem binary_parses_back (v : Byte) :
    (List.finRange 8).foldl (fun n i => 2 * n + if (bin8 v).get i = 0x31 then 1 else 0) 0 = v.toNat := by
  have hdigit (i : Fin 8) : (if (bin8 v).get i = 0x31 then 1 else 0) = v.toNat / 2 ^ (7 - i.val) % 2 := by
    simp only [bin8_get_eq_one_iff]
    split_ifs <;> omega
  simp only [hdigit]
  exact foldl_binary_digits v.toNat v.isLt

theorem binary_complement (v : Byte) (i : Fin 8) : (bin8 (~~~ v)).get i = 0x31 ↔ (bin8 v).get i = 0x30 := by
  rw [bin8_get_eq_one_iff, bin8_get_eq_zero_iff, complement_bit v (by omega)]
  omega

theorem octal_parses_back (v : Byte) :
    64 * (((oct3 v).get 0).toNat - 0x30) + 8 * (((oct3 v).get 1).toNat - 0x30) + (((oct3 v).get 2).toNat - 0x30)
      = v.toNat := by
  have ⟨_, _, hoctal⟩ := texts_of_byte v
  have h0 : ((oct3 v).get 0).toNat = 0x30 + v.toNat / 64 % 8 := hoctal 0
  have h1 : ((oct3 v).get 1).toNat = 0x30 + v.toNat / 8 % 8 := hoctal 1
  have h2 : ((oct3 v).get 2).toNat = 0x30 + v.toNat / 1 % 8 := hoctal 2
  have := v.isLt
  omega

theorem hex_parses_back (v : Byte) :
    ∃ h l, hexval ((hex2 v).get 0) = some h ∧ hexval ((hex2 v).get 1) = some l ∧ 16 * h.toNat + l.toNat = v.toNat := by
  refine ⟨hiNibble v, loNibble v, hexval_digit16 _, hexval_digit16 _, ?_⟩
  rw [hiNibble_toNat, loNibble_toNat]
  omega

/-- Settles O19: each text of the record reads back to its byte, in its own base. -/
theorem digitTextsParseBack : Obligations.DigitTextsParseBack := by
  intro val s h
  rw [← lowByte_toNat h]
  generalize hv : val.extractLsb' 0 8 = v
  exact ⟨encodeByte v, hv ▸ exec_enc_of_le h s, hex_parses_back v, octal_parses_back v, binary_parses_back v,
    binary_complement v⟩

/-! ## The complement -/

/-- Settles O20: the complement of the complement is the byte. -/
theorem complementExchangesTheTexts : Obligations.ComplementExchangesTheTexts := by
  intro val s h
  refine ⟨_, _, exec_enc_of_le h s, exec_enc_complement h s, ?_⟩
  rw [← lowByte_toNat h, ← complement_toNat]
  simp only [encodeByte, BitVec.not_not, true_and]
  exact charmapV_kind _

/-! ## The two character mappings -/

/-- The difference table of R80. -/
theorem kinds_differ_iff (v : Nat) :
    kindOfValue v ≠ kindOfInverted v ↔ v = 32 ∨ v = 127 ∨ (128 ≤ v ∧ v ≤ 135) ∨ v = 160 ∨ v = 173 := by
  unfold kindOfValue kindOfInverted
  split_ifs <;> simp <;> omega

/-- Settles O21: both are mappings of the same byte, and keep it. -/
theorem mappingsDifferExactlyAsTabled : Obligations.MappingsDifferExactlyAsTabled := by
  intro val s h
  refine ⟨_, _, exec_enc_of_le h s, exec_enc_complement h s, ?_⟩
  simp only [encodeByte, BitVec.not_not, charmapV_cp, charmapI_cp, charmapV_kind, charmapI_kind, true_and]
  rw [lowByte_toNat h]
  exact kinds_differ_iff val.toNat

theorem kindOfValue_eq_xxx_iff (v : Nat) : kindOfValue v = .xxx ↔ v ≤ 31 ∨ (128 ≤ v ∧ v ≤ 160) := by
  unfold kindOfValue
  split_ifs <;> simp <;> omega

theorem kindOfInverted_eq_xxx_iff (w : Nat) : kindOfInverted w = .xxx ↔ w ≤ 31 ∨ (136 ≤ w ∧ w ≤ 159) := by
  unfold kindOfInverted
  split_ifs <;> simp <;> omega

/-- Settles O23: the two placeholder ranges, the second read from the complement, have no byte in common. -/
theorem placeholderBytes : Obligations.PlaceholderBytes := by
  intro val s h
  refine ⟨_, exec_enc_of_le h s, ?_⟩
  simp only [encodeByte, charmapV_kind, charmapI_kind, complement_toNat, lowByte_toNat h, kindOfValue_eq_xxx_iff,
    kindOfInverted_eq_xxx_iff, true_and]
  omega

/-- What `char` stands for, by value (R22, R78). -/
theorem text_charmapV (v : Byte) :
    (charmapV v).text =
      if v.toNat = 32 then [0x73, 0x70, 0x61, 0x63, 0x65]
      else if v.toNat = 127 then [0x64, 0x65, 0x6C, 0x65, 0x74, 0x65]
      else if v.toNat = 173 then [0x73, 0x2E, 0x68, 0x79, 0x70, 0x68, 0x65, 0x6E]
      else if v.toNat ≤ 31 ∨ (128 ≤ v.toNat ∧ v.toNat ≤ 160) then [0x78, 0x78, 0x78]
      else [v] := by
  rw [CharDisplay.text, charmapV_kind, charmapV_cp]
  unfold kindOfValue
  split_ifs <;> simp <;> omega

/-- What `char_inverted` stands for, by the inverted value (R22, R79). -/
theorem text_charmapI (w : Byte) :
    (charmapI w).text =
      if w.toNat ≤ 31 ∨ (136 ≤ w.toNat ∧ w.toNat ≤ 159) then [0x78, 0x78, 0x78] else [w] := by
  rw [CharDisplay.text, charmapI_kind, charmapI_cp]
  unfold kindOfInverted
  split_ifs <;> simp <;> omega

/-- Settles O22: both texts follow from the kinds, the second read from the complement. -/
theorem displayTextsOfTheRecord : Obligations.DisplayTextsOfTheRecord := by
  intro val s h
  rw [← lowByte_toNat h]
  generalize hv : val.extractLsb' 0 8 = v
  refine ⟨encodeByte v, hv ▸ exec_enc_of_le h s, ?char, ?charInverted⟩
  case char => rw [BitVec.ofNat_toNat, BitVec.setWidth_eq]; exact text_charmapV v
  case charInverted =>
    rw [← complement_toNat, BitVec.ofNat_toNat, BitVec.setWidth_eq]
    refine (text_charmapI (~~~ v)).trans (if_congr ?_ rfl rfl)
    rw [complement_toNat]
    omega

end Sys2Proof.Machine

/-!
SUPPORT. Properties of the access-rights unit (41_access_rights.md sections 2 to 6, 95_test_vectors.md section 5): what
PARSE does not look at, the triples that pass VALID, and the codes that DERIVE reads from them.
-/

namespace Sys2Proof.Machine

open Sys2Proof.Safety

/-! ## PARSE -/

theorem hexDigit_of_sameUpToCase {c d : Byte} {n : Nat} (h : SameUpToCase c d) (hc : HexDigit c n) : HexDigit d n := by
  unfold SameUpToCase at h
  unfold HexDigit at *
  obtain rfl | h | h := h <;> omega

theorem sameUpToCase_symm {c d : Byte} (h : SameUpToCase c d) : SameUpToCase d c := by
  obtain rfl | h | h := h
  · exact .inl rfl
  · exact .inr (.inr h)
  · exact .inr (.inl h)

/-- Both cases of a letter have one value (R97). -/
theorem hexval_of_sameUpToCase {c d : Byte} (h : SameUpToCase c d) : hexval c = hexval d := by
  ext n
  rw [hexval_eq_some_iff, hexval_eq_some_iff]
  exact ⟨hexDigit_of_sameUpToCase h, hexDigit_of_sameUpToCase (sameUpToCase_symm h)⟩

/-- Settles O24: PARSE looks at a character by `hexval` only. -/
theorem parseIgnoresCase : Obligations.ParseIgnoresCase := by
  intro a b s hlen h0 h1 h2 h3 h4 h5
  have hparse : parseTriple a = parseTriple b := by
    simp only [parseTriple, hexByte, hlen, hexval_of_sameUpToCase h0, hexval_of_sameUpToCase h1,
      hexval_of_sameUpToCase h2, hexval_of_sameUpToCase h3, hexval_of_sameUpToCase h4, hexval_of_sameUpToCase h5]
  have hresp : parseResp b = parseResp a := by rw [parseResp, parseResp, hparse]
  exact ⟨parseResp a, exec_eq (.parse a) s, hresp ▸ exec_eq (.parse b) s⟩

theorem parseTriple_of_len_ne {str : StrOperand} (h : str.len.toNat ≠ 6) : parseTriple str = none :=
  (parseTriple_eq_none_iff str).2 fun ⟨hlen, _⟩ => h hlen

/-- Settles O25: without six characters there is no triple, whatever the slots hold. -/
theorem slotsOfAWrongLengthAreIgnored : Obligations.SlotsOfAWrongLengthAreIgnored := by
  intro a b s hlen h
  have ha := parseTriple_of_len_ne h
  have hb := parseTriple_of_len_ne (hlen ▸ h)
  constructor
  · rw [exec_eq, exec_eq, respOf, respOf, parseResp_of_none ha, parseResp_of_none hb]
  · rw [exec_eq, exec_eq, respOf, respOf, accessResp_of_none s.rom ha, accessResp_of_none s.rom hb]

/-! ## The triples that pass VALID -/

/-- A command's response is the one that its next state ends with. -/
theorem exec_eq_next_iff (i : Instr) (s : State) (r : Resp) :
    exec i s = .next (s.respond r) ↔ respOf s.rom i = r := by
  rw [exec_eq]
  constructor
  · intro h
    simpa using congrArg State.responses (Host.Outcome.next.inj h)
  · rintro rfl
    rfl

theorem exec_valid_ok_iff (t : Triple) (s : State) :
    exec (.valid t) s = .next (s.respond (.ok .empty)) ↔ C1 t ∧ C2 t ∧ C3 t := by
  rw [exec_eq_next_iff, respOf, validResp_eq_elim, ← checksum_eq_none_iff]
  cases checksum t <;> simp

theorem validResp_mismatch67 {t : Triple} (h1 : ¬ C1 t) : validResp t = .error .mismatch67 := by
  rw [validResp_eq, if_neg h1]

theorem validResp_mismatch68 {t : Triple} (h1 : C1 t) (h2 : ¬ C2 t) : validResp t = .error .mismatch68 := by
  rw [validResp_eq, if_pos h1, if_neg h2]

theorem validResp_mismatch78 {t : Triple} (h1 : C1 t) (h2 : C2 t) (h3 : ¬ C3 t) :
    validResp t = .error .mismatch78 := by
  rw [validResp_eq, if_pos h1, if_pos h2, if_neg h3]

/-- The triple of three nibbles (section 3, the well-formed triples). -/
def tripleOfNibbles (n1 n2 n3 : Nibble) : Triple := ⟨~~~ n2 ++ ~~~ n1, n1 ++ ~~~ n3, n3 ++ n2⟩

theorem b6_tripleOfNibbles (n1 n2 n3 : Nibble) :
    (tripleOfNibbles n1 n2 n3).b6.toNat = 16 * (15 - n2.toNat) + (15 - n1.toNat) := by
  simp only [tripleOfNibbles, concat_toNat, BitVec.toNat_not]
  omega

theorem b7_tripleOfNibbles (n1 n2 n3 : Nibble) :
    (tripleOfNibbles n1 n2 n3).b7.toNat = 16 * n1.toNat + (15 - n3.toNat) := by
  simp only [tripleOfNibbles, concat_toNat, BitVec.toNat_not]
  omega

theorem b8_tripleOfNibbles (n1 n2 n3 : Nibble) :
    (tripleOfNibbles n1 n2 n3).b8.toNat = 16 * n3.toNat + n2.toNat := by
  simp only [tripleOfNibbles, concat_toNat]
  omega

theorem tripleOfNibbles_passes (n1 n2 n3 : Nibble) :
    C1 (tripleOfNibbles n1 n2 n3) ∧ C2 (tripleOfNibbles n1 n2 n3) ∧ C3 (tripleOfNibbles n1 n2 n3) := by
  simp only [C1, C2, C3, b6_tripleOfNibbles, b7_tripleOfNibbles, b8_tripleOfNibbles]
  omega

/-- The nibbles of a passing triple are its direct copies: the high nibble of byte 7 and both of byte 8. -/
theorem eq_tripleOfNibbles {t : Triple} (h : C1 t ∧ C2 t ∧ C3 t) :
    t = tripleOfNibbles (hiNibble t.b7) (loNibble t.b8) (hiNibble t.b8) := by
  obtain ⟨h1, h2, h3⟩ := h
  unfold C1 at h1; unfold C2 at h2; unfold C3 at h3
  rw [Triple.mk.injEq]
  simp only [BitVec.toNat_eq, b6_tripleOfNibbles, b7_tripleOfNibbles, b8_tripleOfNibbles, hiNibble_toNat,
    loNibble_toNat]
  omega

/-- Settles O26: three relations on six nibbles leave three of them free. -/
theorem wellFormedTriplesAreBuiltFromThreeNibbles : Obligations.WellFormedTriplesAreBuiltFromThreeNibbles := by
  intro t s
  rw [exec_valid_ok_iff]
  constructor
  · exact fun h => ⟨_, _, _, eq_tripleOfNibbles h⟩
  · rintro ⟨n1, n2, n3, rfl⟩
    exact tripleOfNibbles_passes n1 n2 n3

/-! ## Single-bit corruption -/

theorem field_xor_eq_iff {n : Nat} (v w : BitVec n) (lo width : Nat) :
    (v ^^^ w).extractLsb' lo width = v.extractLsb' lo width ↔ w.extractLsb' lo width = 0 := by
  simp [BitVec.extractLsb'_xor]

theorem hi_xor_eq_iff (v w : Byte) : (v ^^^ w).toNat / 16 = v.toNat / 16 ↔ hiNibble w = 0 := by
  rw [← hiNibble_toNat, ← hiNibble_toNat, ← BitVec.toNat_eq]
  exact field_xor_eq_iff v w 4 4

theorem lo_xor_eq_iff (v w : Byte) : (v ^^^ w).toNat % 16 = v.toNat % 16 ↔ loNibble w = 0 := by
  rw [← loNibble_toNat, ← loNibble_toNat, ← BitVec.toNat_eq]
  exact field_xor_eq_iff v w 0 4

/-- A bit below 4 is one of the low nibble and none of the high one. -/
theorem flip_low (v : Byte) {j : Nat} (hj : j < 4) :
    (v ^^^ BitVec.twoPow 8 j).toNat / 16 = v.toNat / 16 ∧ (v ^^^ BitVec.twoPow 8 j).toNat % 16 ≠ v.toNat % 16 := by
  rw [hi_xor_eq_iff, ne_eq, lo_xor_eq_iff]
  interval_cases j <;> decide

/-- A bit from 4 up is one of the high nibble and none of the low one. -/
theorem flip_high (v : Byte) {j : Nat} (hj : 4 ≤ j) (hj' : j < 8) :
    (v ^^^ BitVec.twoPow 8 j).toNat / 16 ≠ v.toNat / 16 ∧ (v ^^^ BitVec.twoPow 8 j).toNat % 16 = v.toNat % 16 := by
  rw [ne_eq, hi_xor_eq_iff, lo_xor_eq_iff]
  interval_cases j <;> decide

/-- Settles O27: the flip changes one nibble, which one relation reads; the relations before it still hold. -/
theorem singleBitFlipIsReported : Obligations.SingleBitFlipIsReported := by
  intro t s j hpass hj
  obtain ⟨h1, h2, h3⟩ := (exec_valid_ok_iff t s).1 hpass
  simp only [exec_eq_next_iff, respOf]
  by_cases hlow : j < 4
  · simp only [hlow, if_true]
    have h6 := flip_low t.b6 hlow
    have h7 := flip_low t.b7 hlow
    have h8 := flip_low t.b8 hlow
    refine ⟨validResp_mismatch67 ?_, validResp_mismatch78 ?_ ?_ ?_, validResp_mismatch68 ?_ ?_⟩ <;>
      dsimp only [C1, C2, C3] at * <;> omega
  · simp only [hlow, if_false]
    have h6 := flip_high t.b6 (Nat.not_lt.1 hlow) hj
    have h7 := flip_high t.b7 (Nat.not_lt.1 hlow) hj
    have h8 := flip_high t.b8 (Nat.not_lt.1 hlow) hj
    refine ⟨validResp_mismatch68 ?_ ?_, validResp_mismatch67 ?_, validResp_mismatch78 ?_ ?_ ?_⟩ <;>
      dsimp only [C1, C2, C3] at * <;> omega

/-! ## DERIVE -/

theorem high_bit (v b : Nat) : v / 2 ^ (4 + b) % 2 = v / 16 / 2 ^ b % 2 := by
  rw [Nat.pow_add, Nat.div_div_eq_div_mul]

theorem low_bit (v : Nat) {b : Nat} (hb : b < 4) : v / 2 ^ b % 2 = v % 16 / 2 ^ b % 2 := by
  interval_cases b <;> omega

theorem nibble_complement_bit {n b : Nat} (hn : n < 16) (hb : b < 4) : (15 - n) / 2 ^ b % 2 = 1 - n / 2 ^ b % 2 := by
  have h := complement_bit (BitVec.ofNat 4 n) hb
  rwa [BitVec.toNat_not, BitVec.toNat_ofNat, Nat.mod_eq_of_lt hn] at h

/-- Settles O28: the bits of R110 lie in the direct copies. -/
theorem deriveReadsOnlyTheDirectCopies : Obligations.DeriveReadsOnlyTheDirectCopies := by
  intro t u s h7 h8
  have hcode (b : Nat) : accessCode u b = accessCode t b := by
    rw [BitVec.toNat_eq, accessCode_toNat, accessCode_toNat, high_bit u.b7.toNat, high_bit t.b7.toNat, h7, h8]
  have hcodes : accessCodes u = accessCodes t := by simp only [accessCodes, hcode]
  exact ⟨accessCodes t, exec_eq (.derive t) s, hcodes ▸ exec_eq (.derive u) s⟩

/-- Settles O29: each relation says of the bits it compares that they are complements. -/
theorem invertedCopiesGiveTheSameCodes : Obligations.InvertedCopiesGiveTheSameCodes := by
  intro t s hpass
  obtain ⟨h1, h2, h3⟩ := (exec_valid_ok_iff t s).1 hpass
  have := t.b6.isLt
  refine ⟨accessCodes t, exec_eq (.derive t) s, fun b => ?_⟩
  rw [accessCodes_derivesCodes t b, high_bit t.b7.toNat, low_bit t.b8.toNat b.isLt, high_bit t.b8.toNat, h1, h2, h3,
    nibble_complement_bit (by omega) b.isLt, nibble_complement_bit (by omega) b.isLt,
    nibble_complement_bit (by omega) b.isLt, ← low_bit t.b6.toNat b.isLt, ← low_bit t.b7.toNat b.isLt, ← high_bit]

/-! ## Codes and triples -/

/-- Bit `k` of the four codes, block 3 the most significant (R110). -/
def column (cs : AccessCodes) (k : Nat) : Nibble :=
  cs[3].extractLsb' k 1 ++ cs[2].extractLsb' k 1 ++ cs[1].extractLsb' k 1 ++ cs[0].extractLsb' k 1

/-- The passing triple with the codes `cs`: the columns of C1, C2 and C3 are its nibbles. -/
def tripleOfCodes (cs : AccessCodes) : Triple := tripleOfNibbles (column cs 2) (column cs 1) (column cs 0)

theorem column_bit (cs : AccessCodes) (k : Nat) (b : Fin 4) :
    (column cs k).toNat / 2 ^ b.val % 2 = (cs.get b).toNat / 2 ^ k % 2 := by
  simp only [column, concat_toNat, field_toNat]
  fin_cases b <;> simp [Vector.get] <;> omega

theorem accessCodes_tripleOfCodes (cs : AccessCodes) : accessCodes (tripleOfCodes cs) = cs := by
  have hget (b : Fin 4) : (accessCodes (tripleOfCodes cs)).get b = cs.get b := by
    have h7 : (tripleOfCodes cs).b7.toNat / 16 = (column cs 2).toNat := by
      rw [tripleOfCodes, b7_tripleOfNibbles]
      omega
    have h8lo : (tripleOfCodes cs).b8.toNat % 16 = (column cs 1).toNat := by
      rw [tripleOfCodes, b8_tripleOfNibbles]
      omega
    have h8hi : (tripleOfCodes cs).b8.toNat / 16 = (column cs 0).toNat := by
      rw [tripleOfCodes, b8_tripleOfNibbles]
      omega
    rw [BitVec.toNat_eq, accessCodes_derivesCodes, high_bit,
      low_bit (tripleOfCodes cs).b8.toNat b.isLt, high_bit, h7, h8lo, h8hi, column_bit, column_bit, column_bit]
    omega
  exact Vector.ext fun b hb => hget ⟨b, hb⟩

/-- The three bits of a code (R110). -/
theorem accessCode_bits (t : Triple) (b : Nat) :
    (accessCode t b).extractLsb' 2 1 = bit t.b7 (4 + b) ∧ (accessCode t b).extractLsb' 1 1 = bit t.b8 b ∧
      (accessCode t b).extractLsb' 0 1 = bit t.b8 (4 + b) := by
  simp only [BitVec.toNat_eq, field_toNat, accessCode_toNat, bit_toNat]
  omega

/-- Four adjacent bits of a byte are a nibble. -/
theorem four_bits (v : Byte) (lo : Nat) :
    bit v (lo + 3) ++ bit v (lo + 2) ++ bit v (lo + 1) ++ bit v lo = v.extractLsb' lo 4 := by
  simp (disch := omega) only [bit, BitVec.extractLsb'_append_extractLsb'_eq_extractLsb']

/-- The columns of a triple's codes are its direct copies. -/
theorem column_accessCodes (t : Triple) :
    column (accessCodes t) 2 = hiNibble t.b7 ∧ column (accessCodes t) 1 = loNibble t.b8 ∧
      column (accessCodes t) 0 = hiNibble t.b8 := by
  have hbits := accessCode_bits t
  simp only [forall_and] at hbits
  obtain ⟨hc1, hc2, hc3⟩ := hbits
  refine ⟨?c1, ?c2, ?c3⟩
  case c1 => simpa [column, accessCodes, hiNibble, hc1] using four_bits t.b7 4
  case c2 => simpa [column, accessCodes, loNibble, hc2] using four_bits t.b8 0
  case c3 => simpa [column, accessCodes, hiNibble, hc3] using four_bits t.b8 4

theorem tripleOfCodes_accessCodes {t : Triple} (h : C1 t ∧ C2 t ∧ C3 t) : tripleOfCodes (accessCodes t) = t := by
  obtain ⟨h2, h1, h0⟩ := column_accessCodes t
  rw [tripleOfCodes, h2, h1, h0, ← eq_tripleOfNibbles h]

theorem exec_derive_iff (t : Triple) (s : State) (cs : AccessCodes) :
    exec (.derive t) s = .next (s.respond (.ok (.codes cs))) ↔ accessCodes t = cs := by
  rw [exec_eq_next_iff, respOf]
  simp

/-- Settles O30: `tripleOfCodes` undoes DERIVE on the triples that pass. -/
theorem codesDetermineTheWellFormedTriple : Obligations.CodesDetermineTheWellFormedTriple := by
  intro cs s
  simp only [exec_valid_ok_iff, exec_derive_iff]
  refine ⟨tripleOfCodes cs, ⟨tripleOfNibbles_passes _ _ _, accessCodes_tripleOfCodes cs⟩, ?_⟩
  rintro u hu rfl
  exact (tripleOfCodes_accessCodes hu).symm

/-- Settles O31: the tables being known, each response is a closed value. -/
theorem goldenTriples : Obligations.GoldenTriples := by
  intro s hrom
  simp only [exec_eq_next_iff, hrom]
  decide

end Sys2Proof.Machine

/-!
SUPPORT. Assembler lines (30_encoding.md R63): each assembles to the encoding of the command it writes, which decodes to
that command.
-/

namespace Sys2Proof.Machine

open Sys2Proof.Safety

/-! ## Lines and their commands -/

/-- The command a line writes; `.word` gives a word and no command (R63). -/
def commandOfLine : AsmLine → Option Instr
  | .enc n => some (.enc (BitVec.ofNat 16 n))
  | .parse text => some (.parse (operandOfText text))
  | .access text => some (.access (operandOfText text))
  | .valid x y z => some (.valid (tripleOfNats x y z))
  | .derive x y z => some (.derive (tripleOfNats x y z))
  | .lookupT c => some (.lookup true (BitVec.ofNat 3 c))
  | .lookupD c => some (.lookup false (BitVec.ofNat 3 c))
  | .word _ => none

theorem assemble_eq_encode {a : AsmLine} {i : Instr} (hi : commandOfLine a = some i) (h : a.wellFormed = true) :
    assemble a = some (encode i) := by
  cases a <;> cases hi <;> exact if_pos h

/-! ## Operands -/

theorem ofNat_toNat_of_le {n k : Nat} (h : k ≤ 2 ^ n - 1) : (BitVec.ofNat n k).toNat = k := by
  have := Nat.two_pow_pos n
  rw [BitVec.toNat_ofNat, Nat.mod_eq_of_lt (by omega)]

theorem tripleOfNats_toNat {x y z : Nat} (hx : x ≤ 255) (hy : y ≤ 255) (hz : z ≤ 255) :
    (tripleOfNats x y z).b6.toNat = x ∧ (tripleOfNats x y z).b7.toNat = y ∧ (tripleOfNats x y z).b8.toNat = z :=
  ⟨ofNat_toNat_of_le hx, ofNat_toNat_of_le hy, ofNat_toNat_of_le hz⟩

theorem len_operandOfText {text : List Byte} (h : text.length ≤ 255) :
    (operandOfText text).len.toNat = text.length :=
  ofNat_toNat_of_le h

/-- The slots of an operand, the leftmost first (R52). -/
def slotsOf (str : StrOperand) : List Byte := [str.ch0, str.ch1, str.ch2, str.ch3, str.ch4, str.ch5]

theorem slotsOf_operandOfText (text : List Byte) :
    slotsOf (operandOfText text) = (List.range 6).map fun i => text[i]?.getD 0x00 :=
  rfl

/-- Settles O32: a line's word is the encoding of its command, and decoding undoes encoding. -/
theorem assembledLinesDecodeAsWritten : Obligations.AssembledLinesDecodeAsWritten := by
  refine ⟨fun n h => ?enc, fun text h => ?text, fun x y z hx hy hz => ?triple, fun c h => ?lookup, fun w => rfl⟩
  case enc =>
    exact ⟨_, _, assemble_eq_encode rfl (decide_eq_true h), decodeOfEncode _, ofNat_toNat_of_le h⟩
  case text =>
    exact ⟨_, _, _, assemble_eq_encode rfl (decide_eq_true h), decodeOfEncode _,
      assemble_eq_encode rfl (decide_eq_true h), decodeOfEncode _, len_operandOfText h, slotsOf_operandOfText text⟩
  case triple =>
    exact ⟨_, _, _, assemble_eq_encode rfl (decide_eq_true ⟨hx, hy, hz⟩), decodeOfEncode _,
      assemble_eq_encode rfl (decide_eq_true ⟨hx, hy, hz⟩), decodeOfEncode _, tripleOfNats_toNat hx hy hz⟩
  case lookup =>
    exact ⟨_, _, _, assemble_eq_encode rfl (decide_eq_true h), decodeOfEncode _,
      assemble_eq_encode rfl (decide_eq_true h), decodeOfEncode _, ofNat_toNat_of_le h⟩

/-! ## Texts -/

theorem status_parseResp_eq_ok_iff (str : StrOperand) : (parseResp str).status = .ok ↔ SixHexDigits str := by
  rw [sixHexDigits_iff_parseTriple]
  cases h : parseTriple str with
  | none => simp [parseResp_of_none h, Resp.status, ErrorStatus.status]
  | some t => simp [parseResp_of_some h, Resp.status]

/-- Six characters fill the six slots. -/
theorem slotsOf_operandOfText_of_length {text : List Byte} (h : text.length = 6) :
    slotsOf (operandOfText text) = text := by
  rw [slotsOf_operandOfText]
  refine List.ext_getElem (by simp [h]) fun i _ hi => ?_
  simp [hi]

theorem sixHexDigits_operandOfText_iff {text : List Byte} (h : text.length ≤ 255) :
    SixHexDigits (operandOfText text) ↔ text.length = 6 ∧ ∀ c ∈ text, ∃ n, HexDigit c n := by
  rw [SixHexDigits, len_operandOfText h]
  refine and_congr_right fun hlen => ?_
  have hslots := slotsOf_operandOfText_of_length hlen
  rw [slotsOf] at hslots
  rw [hslots]

theorem respOfWord_encode (rom : PermTables) (i : Instr) : respOfWord rom (encode i) = respOf rom i := by
  rw [respOfWord, decodeOfEncode]

/-- A command presented next is answered on the state before it was presented. -/
theorem step_presentNext_encode (i : Instr) (s : State) :
    step (presentNext (encode i) s) = .next (s.respond (respOf s.rom i)) := by
  rw [step_command (presentNext_stream (encode i) s), presentNext_rom, respOfWord_encode]
  rfl

/-- Settles O33: the step answers what PARSE answers to the text's operand, whose slots are the text when it has six
characters. -/
theorem assembledTextParsesWhenSixHexDigits : Obligations.AssembledTextParsesWhenSixHexDigits := by
  intro text s h
  refine ⟨encode (.parse (operandOfText text)), parseResp (operandOfText text),
    assemble_eq_encode rfl (decide_eq_true h), step_presentNext_encode _ s, ?_⟩
  rw [status_parseResp_eq_ok_iff, sixHexDigits_operandOfText_iff h]

end Sys2Proof.Machine
